-- ==== Sys2Proof/Word.lean ====
section
/-! DEFINITION. The fixed sizes, the 64-bit word and the eight-word bank (spec/00_scope.md R6, R9). -/

namespace Sys2Proof

/-- One 64-bit word, "the atomic digit of the big-integer representation" (glossary, R6: WORD_BITS = 64). -/
abbrev Word := BitVec 64

/-- A bank: eight words, index 0 the most significant (R9, R26; R6: WORDS = 8). -/
abbrev Bank := Vector Word 8

/-- A word offset into the register window of 64 slots (R7: WINDOW_WORDS = 64; R50). -/
abbrev Offset := BitVec 6

/-- Every word of a bank zero. -/
abbrev zeroBank : Bank := #v[0, 0, 0, 0, 0, 0, 0, 0]

end Sys2Proof
end

