-- ==== Sys2Proof/Config.lean ====
section
/-! DEFINITION. What the spec leaves to the platform and no rule depends on (spec/00_scope.md R7,
spec/70_reset_and_hazards.md R210). The other two open parameters of R7, `BASE` and `INSTANCES`, are
arguments of the platform layer (Machine/Platform.lean): a platform is a list of engines, each with its base. -/

namespace Sys2Proof

/-- LAT_MULW: the time a MULW takes, any finite value, read by no definition (R210). DESIGN CHOICE (log entry 9):
one unknown number for each content of OPA and OPB, so that nothing says the time is the same for all operands. -/
opaque Config.latMulw : Bank → Bank → Nat

/-- LAT_MULS: the time a MULS takes, any finite value, read by no definition (R210). DESIGN CHOICE (log entry 9):
one unknown number for each content of OPA and OPS, so that nothing says the time is the same for all operands. -/
opaque Config.latMuls : Bank → Word → Nat

/-- LAT_DIVW: the time a DIVW takes, any finite value, read by no definition (R210). DESIGN CHOICE (log entry 9):
one unknown number for each content of OPA and OPB, so that nothing says the time is the same for all operands. -/
opaque Config.latDivw : Bank → Bank → Nat

/-- LAT_DIVS: the time a DIVS takes, any finite value, read by no definition (R210). DESIGN CHOICE (log entry 9):
one unknown number for each content of OPA and OPS, so that nothing says the time is the same for all operands. -/
opaque Config.latDivs : Bank → Word → Nat

end Sys2Proof
end

