-- ==== Sys2Proof/Syntax.lean ====
section
/-! DEFINITION. The engine's commands: the four rows of spec/opcode_table.json (spec/30_encoding.md R89). -/

namespace Sys2Proof

/-- The complete command set (R89). A command has no operand field and no immediate: its operands and
destinations are fixed registers (R82). -/
inductive Instr where
  /-- MULW, D0's `mulWide`: RHI:RLO becomes OPA times OPB (R100). -/
  | mulw
  /-- MULS, D0's `mulWideByScalar`: RS:RLO becomes OPA times OPS (R101). -/
  | muls
  /-- DIVW, D0's `divWide`: RLO and RHI become quotient and remainder of OPA by OPB (R120). -/
  | divw
  /-- DIVS, D0's `divWideByScalar`: RLO and RS become quotient and remainder of OPA by OPS (R121). -/
  | divs
deriving DecidableEq, Repr

end Sys2Proof
end

