-- ==== Sys2Proof/WellFormed.lean ====
section
/-! DEFINITION. What is well-formed: a command (always, R82) and a command word (spec/30_encoding.md R84).
The checks on host accesses, base addresses and script statements stand beside their types, in
Machine/Platform.lean and Machine/Script.lean. -/

namespace Sys2Proof

/-- A command has no operand fields (R82), so there is nothing in one that could be ill-formed. -/
def Instr.wellFormed : Instr → Bool
  | .mulw => true
  | .muls => true
  | .divw => true
  | .divs => true

/-- The host's duty on a command word: bits 63 to 2 are zero (R84). -/
def wellFormedCommandWord (v : Word) : Bool := v >>> 2 == 0

end Sys2Proof
end

