-- ==== Sys2Proof/Decode.lean ====
section
/-! DEFINITION. The command word `CMD64`: its fields, the decoder (total, rejecting by name), the opcode map
and the encoder (spec/30_encoding.md R80, R81, R84, R89). -/

namespace Sys2Proof

/-- Why a command word is rejected. -/
inductive DecodeError where
  /-- A bit of `RSVD`, bits 63 to 2, is one (R84; U1 of spec/93_implementation_defined.md). -/
  | reservedBits
deriving DecidableEq, Repr

/-- Field `RSVD`, bits 63 to 2 (R80). -/
def commandRsvd (v : Word) : BitVec 62 := v.extractLsb' 2 62

/-- Field `DIV`, bit 1: false selects the Multiply Engine, true the Divide Engine (R80, R81). -/
def commandDiv (v : Word) : Bool := v.getLsbD 1

/-- Field `T64`, bit 0: false takes the second operand from OPB, true from OPS (R80, R81). -/
def commandT64 (v : Word) : Bool := v.getLsbD 0

/-- The command a word written to CMD selects (R80). -/
def decode (v : Word) : Except DecodeError Instr :=
  if commandRsvd v ≠ 0 then .error .reservedBits
  else match commandDiv v, commandT64 v with
    | false, false => .ok .mulw
    | false, true => .ok .muls
    | true, false => .ok .divw
    | true, true => .ok .divs

/-- One row of the opcode map: a word `v` selects the row when `v AND mask = pattern` (R89; the table calls the
pattern "match"). -/
structure OpcodeRow where
  instr : Instr
  pattern : Word
  mask : Word
deriving DecidableEq, Repr

/-- The complete opcode map (R89). -/
def opcodeTable : List OpcodeRow :=
  [ ⟨.mulw, 0x0000000000000000#64, 0xFFFFFFFFFFFFFFFF#64⟩,
    ⟨.muls, 0x0000000000000001#64, 0xFFFFFFFFFFFFFFFF#64⟩,
    ⟨.divw, 0x0000000000000002#64, 0xFFFFFFFFFFFFFFFF#64⟩,
    ⟨.divs, 0x0000000000000003#64, 0xFFFFFFFFFFFFFFFF#64⟩ ]

/-- The `DIV` bit of a command (R82, R89). -/
def Instr.isDivide : Instr → Bool
  | .mulw => false
  | .muls => false
  | .divw => true
  | .divs => true

/-- The `T64` bit of a command (R82, R89). -/
def Instr.isScalar : Instr → Bool
  | .mulw => false
  | .muls => true
  | .divw => false
  | .divs => true

/-- The command word of a command: `RSVD` zero, then `DIV`, then `T64` (R80). -/
def encode (i : Instr) : Word :=
  0#62 ++ (BitVec.ofBool i.isDivide ++ BitVec.ofBool i.isScalar)

/-- The command the decoder reads from a command whose bits are `w`; a command is 64 bits (R80), and bits of
`w` at or above `nbits` are no part of it. -/
def decodeTableWord (nbits w : Nat) : Option Instr :=
  if w < 2 ^ nbits ∧ w < 2 ^ 64 then
    match decode (BitVec.ofNat 64 w) with
    | .ok i => some i
    | .error _ => none
  else none

end Sys2Proof
end

