-- ==== Sys2Proof/Machine/State.lean ====
section
/-! DEFINITION. The state of one engine (spec/10_state.md R20 to R38), what reaches it from outside
(spec/20_memory.md R57, R58; spec/70_reset_and_hazards.md R200), and why a step can stop. -/

namespace Sys2Proof.Machine

/-- What can reach an engine: the host's two transactions, each of one whole word at a word offset 0x00 to 0x3F
(R50, R56), and the environment's reset (R200). -/
inductive Event where
  /-- `HostRead(off)` (R57). -/
  | read (off : Offset)
  /-- `HostWrite(off, v)` (R58). -/
  | write (off : Offset) (v : Word)
  /-- `Reset`, from the environment (R200). -/
  | reset
deriving DecidableEq, Repr

/-- The state of one engine. The first seven fields are the architectural state, 35 words (R20), all distinct
storage (R21). The last two are not registers: they are the model's hold on the outside world, the order in
which events reach the engine (R62) and the values it has returned (log entry 1). -/
structure State where
  /-- OPA, first operand (R22). -/
  opa : Bank
  /-- OPB, second operand, wide (R23). -/
  opb : Bank
  /-- OPS, second operand, scalar (R28). -/
  ops : Word
  /-- RLO, first result (R24). -/
  rlo : Bank
  /-- RHI, second result, wide (R25). -/
  rhi : Bank
  /-- RS, second result, scalar (R28). -/
  rs : Word
  /-- STATUS, the status of the most recent command (R29). -/
  status : Word
  /-- The events that have yet to reach the engine, the next one first (R62). -/
  pending : List Event
  /-- The values `HostRead` has returned, the oldest first (R57). -/
  answers : List Word
deriving DecidableEq, Repr

/-- A fault of the machine: there is none. The engine raises no exception and never stops (R182), and its one
error, DivideByZero, is a status value with defined outputs (R180, R123). Nothing raises a fault, so no claim can
rest on one: safe. -/
inductive Fault
deriving DecidableEq, Repr

/-- Why the model gives an event no meaning. -/
inductive Refusal where
  /-- Raised by an arm of `exec` whose command has no meaning yet; no arm is such. Safe: the run stops. -/
  | notModelled (mnemonic : String)
  /-- Raised by a write to CMD with a bit of bits 63 to 2 set: U1, "a model must treat such a write as refused"
  (R84). Safe: the run stops. -/
  | reservedCommandBits
  /-- Raised by the platform layer on a bus access of another width than one word or misaligned: U2, "model:
  refuse" (R56). DESIGN CHOICE: also on an address outside every window (log entry 6). Safe: the run stops. -/
  | unsupportedAccess
deriving DecidableEq, Repr

/-- Right after reset every word of state is zero, STATUS among them, where zero is `ST_OK` (R38), and nothing is
executing (R201): no event is pending and nothing has been read. -/
def State.reset : State where
  opa := zeroBank
  opb := zeroBank
  ops := 0
  rlo := zeroBank
  rhi := zeroBank
  rs := 0
  status := 0
  pending := []
  answers := []

end Sys2Proof.Machine
end

