-- ==== Sys2Proof/Machine/Flags.lean ====
section
/-! DEFINITION. The STATUS values. The engine has no other flag or condition code (spec/10_state.md R29, R32). -/

namespace Sys2Proof.Machine

/-- `ST_OK`: the command succeeded and its outputs are the mathematical results (R29). -/
def stOk : Word := 0x0000000000000000#64

/-- `ST_DBZ`, D0's `-1` as a 64-bit two's-complement word: DIVW or DIVS with a zero divisor (R29, R181). -/
def stDbz : Word := 0xFFFFFFFFFFFFFFFF#64

/-- The only two values that ever occur in STATUS (R29). -/
def legalStatus (w : Word) : Bool := w == stOk || w == stDbz

/-- The status of a divide: it depends on the divisor alone (R123, R186). -/
def divideStatus (divisor : Nat) : Word := if divisor = 0 then stDbz else stOk

end Sys2Proof.Machine
end

