-- ==== Sys2Proof/Machine/Operands.lean ====
section
/-! DEFINITION. Numbers and registers: the value of a bank, the bank of a number, bit fields, and how a command
reads its operands (spec/00_scope.md R8, R9; spec/30_encoding.md R82). -/

namespace Sys2Proof.Machine

/-- `val(X)`, the 512-bit natural number a bank holds (R9): its words are digits in base 2^64, index 0 the most
significant. Written as Horner's rule; `val_eq_sum` of Laws/Operands.lean is the sum of R9. -/
def val (X : Bank) : Nat :=
  ((((((X[0].toNat * 2 ^ 64 + X[1].toNat) * 2 ^ 64 + X[2].toNat) * 2 ^ 64 + X[3].toNat) * 2 ^ 64
    + X[4].toNat) * 2 ^ 64 + X[5].toNat) * 2 ^ 64 + X[6].toNat) * 2 ^ 64 + X[7].toNat

/-- The 64-bit register holding `v mod 2^64`. -/
def word (v : Nat) : Word := BitVec.ofNat 64 v

/-- The bank with the eight given words. -/
def bankOf (f : Fin 8 → Word) : Bank := #v[f 0, f 1, f 2, f 3, f 4, f 5, f 6, f 7]

/-- `wide(v)`: word `i` is `(v >> (64*(7-i))) mod 2^64` (R9). -/
def wide (v : Nat) : Bank := bankOf fun i => word (v >>> (64 * (7 - i.val)))

/-- `w[hi:lo]`, the field of bits `hi` down to `lo` as an unsigned number (R8). -/
def bitField (w hi lo : Nat) : Nat := (w >>> lo) % 2 ^ (hi - lo + 1)

/-- `bit(X, i)`, bit `i` of a bank's value, counted from the least significant (R8, R124). -/
def bankBit (X : Bank) (i : Nat) : Bool := X[7 - i / 64].getLsbD (i % 64)

/-- The first operand of every command, OPA as a 512-bit number; nothing is extended, scaled or shifted (R82). -/
def firstOperand (s : State) : Nat := val s.opa

/-- The second operand of a command whose `T64` bit is 0, OPB as a 512-bit number (R81, R82). -/
def wideOperand (s : State) : Nat := val s.opb

/-- The second operand of a command whose `T64` bit is 1, OPS as a 64-bit number (R81, R82). -/
def scalarOperand (s : State) : Nat := s.ops.toNat

end Sys2Proof.Machine
end

