-- ==== Sys2Proof/Machine/Ops.lean ====
section
/-! DEFINITION. The shared operations on registers: how a command writes its results, the divide-by-zero outcome,
reset, and the answer to a read. There is no memory (spec/20_memory.md R53), no trap entry and no return from one
(spec/60_exceptions.md R187, R188). -/

namespace Sys2Proof.Machine

/-- A wide command writes RLO, RHI and STATUS, and nothing else, as one atomic state change (R35, R59). -/
def commitWide (first second : Nat) (st : Word) (s : State) : State :=
  { s with rlo := wide first, rhi := wide second, status := st }

/-- A scalar command writes RLO, RS and STATUS, and nothing else, as one atomic state change (R35, R59). -/
def commitScalar (first second : Nat) (st : Word) (s : State) : State :=
  { s with rlo := wide first, rs := word second, status := st }

/-- DivideByZero for a wide divide: RLO and RHI all zero, STATUS is `ST_DBZ` (R123). The complete state change:
there is no trap entry (R187). -/
def divideByZeroWide (s : State) : State := commitWide 0 0 stDbz s

/-- DivideByZero for a scalar divide: RLO all zero, RS zero, STATUS is `ST_DBZ` (R123). The complete state
change: there is no trap entry (R187). -/
def divideByZeroScalar (s : State) : State := commitScalar 0 0 stDbz s

/-- The effect of `Reset`: every word of state takes its reset value, as one atomic change (R200, R38). Reset is
one of the events, so those after it still come, and the values read before it have been returned. -/
def resetRegisters (s : State) : State :=
  { State.reset with pending := s.pending, answers := s.answers }

/-- The host receives `v` as the value of a read; no register changes (R57). -/
def answer (v : Word) (s : State) : State := { s with answers := s.answers ++ [v] }

/-- The host stores `v` in word `i` of OPA (R58). -/
def storeOpa (i : Fin 8) (v : Word) (s : State) : State := { s with opa := s.opa.set i v }

/-- The host stores `v` in word `i` of OPB (R58). -/
def storeOpb (i : Fin 8) (v : Word) (s : State) : State := { s with opb := s.opb.set i v }

/-- The host stores `v` in OPS (R58). -/
def storeOps (v : Word) (s : State) : State := { s with ops := v }

/-- The same engine with `es` as the events still to come. -/
def withPending (es : List Event) (s : State) : State := { s with pending := es }

end Sys2Proof.Machine
end

