-- ==== Sys2Proof/Machine/Divide.lean ====
section
/-! DEFINITION. The Divide Engine: DIVW and DIVS (spec/42_divide.md). The result is the unique quotient and
remainder (R122) or the divide-by-zero outcome (R123); the internal algorithm is not visible (R126). -/

namespace Sys2Proof.Machine

/-- DIVW (R120): OPA by OPB, quotient to RLO, remainder to RHI. The divisor test comes first (R186). -/
def execDivw (s : State) : Host.Outcome State Fault Refusal :=
  let n := firstOperand s
  let d := wideOperand s
  if d = 0 then .next (divideByZeroWide s)
  else .next (commitWide (n / d) (n % d) stOk s)

/-- DIVS (R121): OPA by OPS, quotient to RLO, remainder to RS. The divisor test comes first (R186). -/
def execDivs (s : State) : Host.Outcome State Fault Refusal :=
  let n := firstOperand s
  let d := scalarOperand s
  if d = 0 then .next (divideByZeroScalar s)
  else .next (commitScalar (n / d) (n % d) stOk s)

end Sys2Proof.Machine
end

