-- ==== Sys2Proof/Machine/Multiply.lean ====
section
/-! DEFINITION. The Multiply Engine: MULW and MULS (spec/41_multiply.md). The result is the exact product (R102);
the internal algorithm is not visible (R105). -/

namespace Sys2Proof.Machine

/-- MULW (R100): the 1024-bit product of OPA and OPB, low half to RLO, high half to RHI. -/
def execMulw (s : State) : Host.Outcome State Fault Refusal :=
  let p := firstOperand s * wideOperand s
  .next (commitWide (p % 2 ^ 512) (p / 2 ^ 512) stOk s)

/-- MULS (R101): the 576-bit product of OPA and OPS, low 512 bits to RLO, the upper word to RS. -/
def execMuls (s : State) : Host.Outcome State Fault Refusal :=
  let p := firstOperand s * scalarOperand s
  .next (commitScalar (p % 2 ^ 512) (p / 2 ^ 512) stOk s)

end Sys2Proof.Machine
end

