-- ==== Sys2Proof/Machine/Dispatch.lean ====
section
/-! DEFINITION. One arm per command. -/

namespace Sys2Proof.Machine

def exec (i : Instr) (s : State) : Host.Outcome State Fault Refusal :=
  match i with
  | .mulw => Sys2Proof.Machine.execMulw s
  | .muls => Sys2Proof.Machine.execMuls s
  | .divw => Sys2Proof.Machine.execDivw s
  | .divs => Sys2Proof.Machine.execDivs s

end Sys2Proof.Machine
end

