-- ==== Sys2Proof/Machine/Window.lean ====
section
/-! DEFINITION. The register window: which register a word offset names, what a read returns and what a write
does, and the order in which events take effect (spec/20_memory.md R50 to R62, spec/30_encoding.md R80). -/

namespace Sys2Proof.Machine

/-- The locations of the window, under the spec's names (R51, R86). -/
inductive Reg where
  | opa (i : Fin 8)
  | opb (i : Fin 8)
  | rlo (i : Fin 8)
  | rhi (i : Fin 8)
  | ops
  | rs
  | cmd
  | status
deriving DecidableEq, Repr

/-- The word offset of a register (R51). -/
def Reg.offset : Reg → Offset
  | .opa i => BitVec.ofNat 6 (0x00 + i.val)
  | .opb i => BitVec.ofNat 6 (0x08 + i.val)
  | .rlo i => BitVec.ofNat 6 (0x10 + i.val)
  | .rhi i => BitVec.ofNat 6 (0x18 + i.val)
  | .ops => 0x20#6
  | .rs => 0x21#6
  | .cmd => 0x22#6
  | .status => 0x23#6

/-- The register at a word offset; none for the reserved slots 0x24 to 0x3F (R51). -/
def regAt (off : Offset) : Option Reg :=
  let n := off.toNat
  if n ≤ 0x07 then some (.opa (Fin.ofNat 8 (n - 0x00)))
  else if n ≤ 0x0F then some (.opb (Fin.ofNat 8 (n - 0x08)))
  else if n ≤ 0x17 then some (.rlo (Fin.ofNat 8 (n - 0x10)))
  else if n ≤ 0x1F then some (.rhi (Fin.ofNat 8 (n - 0x18)))
  else if n = 0x20 then some .ops
  else if n = 0x21 then some .rs
  else if n = 0x22 then some .cmd
  else if n = 0x23 then some .status
  else none

/-- What a register reads as: its word, and 0 for CMD, which holds nothing (R36, R57). -/
def readReg (s : State) : Reg → Word
  | .opa i => s.opa[i]
  | .opb i => s.opb[i]
  | .rlo i => s.rlo[i]
  | .rhi i => s.rhi[i]
  | .ops => s.ops
  | .rs => s.rs
  | .cmd => 0
  | .status => s.status

/-- The value `HostRead(off)` returns; a reserved slot reads as 0 (R57). -/
def hostRead (off : Offset) (s : State) : Word :=
  match regAt off with
  | some r => readReg s r
  | none => 0

/-- `Execute(v)`: run the command the word selects; a word with a reserved bit set is refused (R80, R84). -/
def execute (v : Word) (s : State) : Host.Outcome State Fault Refusal :=
  match decode v with
  | .ok i => exec i s
  | .error .reservedBits => .refused .reservedCommandBits

/-- `HostWrite(off, v)`: operand registers store, CMD executes, all else ignores the write (R58, R36). -/
def hostWrite (off : Offset) (v : Word) (s : State) : Host.Outcome State Fault Refusal :=
  match regAt off with
  | some (.opa i) => .next (storeOpa i v s)
  | some (.opb i) => .next (storeOpb i v s)
  | some .ops => .next (storeOps v s)
  | some .cmd => execute v s
  | some (.rlo _) | some (.rhi _) | some .rs | some .status | none => .next s

/-- One event takes its full effect, a whole command included (R59, R62, R205). -/
def perform (e : Event) (s : State) : Host.Outcome State Fault Refusal :=
  match e with
  | .read off => .next (answer (hostRead off s) s)
  | .write off v => hostWrite off v s
  | .reset => .next (resetRegisters s)

/-- Events performed one at a time, in order, each before the next begins (R62). -/
def performAll : List Event → State → Host.Outcome State Fault Refusal
  | [], s => .next s
  | e :: es, s =>
    match perform e s with
    | .next t => performAll es t
    | .fault f => .fault f
    | .refused r => .refused r

/-- The engine serves the next event that reaches it. With none it is idle: it "executes nothing until the host
writes CMD" (R201), so nothing changes (log entry 2). -/
def serve (s : State) : Host.Outcome State Fault Refusal :=
  match s.pending with
  | [] => .next s
  | e :: es => perform e (withPending es s)

/-- The same engine with the CMD write of `v` as the next event to reach it (R30). -/
def withNextCommand (v : Word) (s : State) : State :=
  withPending (.write Reg.cmd.offset v :: s.pending) s

end Sys2Proof.Machine
end

