-- ==== Sys2Proof/Machine/Step.lean ====
section
/-! DEFINITION. One step of the engine: one event served (spec/20_memory.md R62). There is no program counter and
no fetch (spec/10_state.md R31): a command is the data of a CMD write. -/

namespace Sys2Proof.Machine

/-- One step: the next event takes its full effect. -/
def step (s : State) : Host.Outcome State Fault Refusal := serve s

/-- `s` with the command of bits `w` (the bits at and above `nbits` zero) as the data of a CMD write that is the
next event to reach the engine, so that the next step runs it. -/
def State.withFetchWord (s : State) (nbits w : Nat) : State :=
  withNextCommand (word (w % 2 ^ nbits)) s

end Sys2Proof.Machine
end

