-- ==== Sys2Proof/Machine/Platform.lean ====
section
/-! DEFINITION. A platform: one or more engines, each with its own state at its own base address, reached over a
byte-addressed bus (spec/20_memory.md R52, R55, R56; spec/60_exceptions.md R191; spec/00_scope.md R7, R11). -/

namespace Sys2Proof.Machine

/-- One engine of a platform: the byte address `BASE` of its window, and its state (R52, R191). -/
structure EngineAt where
  base : Nat
  engine : State
deriving DecidableEq, Repr

/-- The engines of a platform; `INSTANCES` is how many there are (R191). -/
abbrev Platform := List EngineAt

/-- `BASE` is a multiple of 512, the size of a window in bytes: 64 word slots of eight bytes (R52). -/
def wellFormedBase (base : Nat) : Bool := base % 512 == 0

/-- The constraints on a platform: at least one engine (R191), each base a multiple of 512 (R52), and no base
used twice (each engine is at its own `BASE`, R191). -/
def Platform.wellFormed (p : Platform) : Bool :=
  !p.isEmpty && p.all (fun e => wellFormedBase e.base) && decide ((p.map EngineAt.base).Nodup)

/-- An address inside the window of an engine (R52). -/
def EngineAt.claims (e : EngineAt) (addr : Nat) : Bool := e.base ≤ addr && addr < e.base + 512

/-- The only access a window supports: a whole, naturally aligned 64-bit word (R56). -/
def wholeWordAccess (base addr bytes : Nat) : Bool := bytes == 8 && (addr - base) % 8 == 0

/-- The word offset of a byte address, `off = (addr - BASE) / 8` (R11, R52). -/
def offsetOf (base addr : Nat) : Offset := BitVec.ofNat 6 ((addr - base) / 8)

/-- An access of `bytes` bytes at `addr`, which becomes event `ev off` of the engine whose window holds the
address. An access of another width or alignment is refused (U2, R56). DESIGN CHOICE: so is one outside every window
(log entry 6). -/
def Platform.access (ev : Offset → Event) (addr bytes : Nat) :
    Platform → Host.Outcome Platform Fault Refusal
  | [] => .refused .unsupportedAccess
  | e :: es =>
    if e.claims addr then
      if wholeWordAccess e.base addr bytes then
        match perform (ev (offsetOf e.base addr)) e.engine with
        | .next t => .next ({ e with engine := t } :: es)
        | .fault f => .fault f
        | .refused r => .refused r
      else .refused .unsupportedAccess
    else
      match Platform.access ev addr bytes es with
      | .next ts => .next (e :: ts)
      | .fault f => .fault f
      | .refused r => .refused r

/-- `MemRead(addr, n)`: the value read is added to the answers of the engine read (R11, R57). -/
def Platform.memRead (addr bytes : Nat) (p : Platform) : Host.Outcome Platform Fault Refusal :=
  Platform.access (fun off => .read off) addr bytes p

/-- `MemWrite(addr, n, v)` (R11, R58). -/
def Platform.memWrite (addr bytes : Nat) (v : Word) (p : Platform) : Host.Outcome Platform Fault Refusal :=
  Platform.access (fun off => .write off v) addr bytes p

/-- All engines in the reset state (R191). -/
def Platform.reset (bases : List Nat) : Platform := bases.map fun b => ⟨b, State.reset⟩

/-- `Reset` of the engine in place `k`, which touches no other engine (R191, R200). -/
def Platform.resetAt (k : Nat) (p : Platform) : Platform :=
  p.modify k fun e => { e with engine := resetRegisters e.engine }

end Sys2Proof.Machine
end

