-- ==== Sys2Proof/Machine/Utilities.lean ====
section
/-! DEFINITION. The word-array utilities, pure functions from banks to banks written word by word
(spec/43_word_array_utilities.md R150 to R162). They are not commands and leave no trace in any register (R150);
the reference algorithms and the test oracles use them. A `dst` argument is the result, since every utility reads
all its source words before it writes (R162). -/

namespace Sys2Proof.Machine

/-- The indices 7, 6, …, 0: from the least significant word up, the way a carry goes. -/
def upwards : List (Fin 8) := [7, 6, 5, 4, 3, 2, 1, 0]

/-- The indices 0, 1, …, 7: from the most significant word down. -/
def downwards : List (Fin 8) := [0, 1, 2, 3, 4, 5, 6, 7]

/-- Word `k` of a bank; a word with an index above 7 counts as 0 (R159). -/
def wordOrZero (X : Bank) (k : Nat) : Word := if h : k < 8 then X[k] else 0

/-- `zero(w)`: all eight words become 0 (R151). -/
def utilZero : Bank := bankOf fun _ => 0

/-- `copy(dst, src)` (R152). -/
def utilCopy (src : Bank) : Bank := bankOf fun i => src[i]

/-- `setScalar(dst, s)`: words 0 to 6 zero, word 7 is `s` (R153). -/
def utilSetScalar (s : Word) : Bank := bankOf fun i => if i.val = 7 then s else 0

/-- The comparison of `compare` over the words whose indices are listed: the first pair that differs decides. -/
def compareWords (a b : Bank) : List (Fin 8) → Int
  | [] => 0
  | i :: is => if a[i] = b[i] then compareWords a b is else if a[i] < b[i] then -1 else 1

/-- `compare(a, b)`: decided by the first index, counting up from 0, at which the words differ (R154). -/
def utilCompare (a b : Bank) : Int := compareWords a b downwards

/-- `compareScalar(a, s)` is `compare(a, wide(s))` (R155). -/
def utilCompareScalar (a : Bank) (s : Word) : Int := utilCompare a (utilSetScalar s)

/-- One link of the carry chain of `add`: word `i` of the sum and the carry out of it. -/
def addWord (a b : Bank) (acc : Bank × Nat) (i : Fin 8) : Bank × Nat :=
  let t := a[i].toNat + b[i].toNat + acc.2
  (acc.1.set i (word t), t / 2 ^ 64)

/-- `add(dst, a, b)`: a carry chain from index 7 up to index 0; the sum and the carry-out (R156). -/
def utilAdd (a b : Bank) : Bank × BitVec 1 :=
  let r := upwards.foldl (addWord a b) (utilZero, 0)
  (r.1, BitVec.ofNat 1 r.2)

/-- `addScalar(dst, a, s)` is `add(dst, a, wide(s))` (R157). -/
def utilAddScalar (a : Bank) (s : Word) : Bank × BitVec 1 := utilAdd a (utilSetScalar s)

/-- One link of the borrow chain of `sub`: word `i` of the difference and the borrow out of it. -/
def subWord (a b : Bank) (acc : Bank × Nat) (i : Fin 8) : Bank × Nat :=
  let d := b[i].toNat + acc.2
  (acc.1.set i (word (2 ^ 64 + a[i].toNat - d)), if a[i].toNat < d then 1 else 0)

/-- `sub(dst, a, b)`: a borrow chain from index 7 up to index 0; the difference and the borrow-out (R158). -/
def utilSub (a b : Bank) : Bank × BitVec 1 :=
  let r := upwards.foldl (subWord a b) (utilZero, 0)
  (r.1, BitVec.ofNat 1 r.2)

/-- `shiftLeft(dst, src, bits)`, the word formula with `q = bits div 64` and `r = bits mod 64` (R159). -/
def utilShiftLeft (src : Bank) (bits : BitVec 16) : Bank :=
  let q := bits.toNat / 64
  let r := bits.toNat % 64
  bankOf fun i =>
    (wordOrZero src (i.val + q) <<< r) |||
      (if r = 0 then 0 else wordOrZero src (i.val + q + 1) >>> (64 - r))

/-- `shiftRight(dst, src, bits)`, the word formula with `q = bits div 64` and `r = bits mod 64`; a word with an
index below 0 counts as 0 (R160). -/
def utilShiftRight (src : Bank) (bits : BitVec 16) : Bank :=
  let q := bits.toNat / 64
  let r := bits.toNat % 64
  bankOf fun i =>
    ((if q ≤ i.val then wordOrZero src (i.val - q) else 0) >>> r) |||
      (if r = 0 then 0 else (if q + 1 ≤ i.val then wordOrZero src (i.val - q - 1) else 0) <<< (64 - r))

/-- `or(dst, a, b)`, word by word (R161). -/
def utilOr (a b : Bank) : Bank := bankOf fun i => a[i] ||| b[i]

end Sys2Proof.Machine
end

