-- ==== Sys2Proof/Machine/Reference.lean ====
section
/-! DEFINITION. The reference algorithms of the two engines: schoolbook multiplication (spec/41_multiply.md R103,
R104) and binary long division (spec/42_divide.md R124, R125). No command is defined by them, and nothing of them
is visible (R105, R126); obligations state that they compute what the commands write. -/

namespace Sys2Proof.Machine

/-- One digit product of row `i`: `x <- A[7-j] * B[7-i] + t[i+j] + carry`, then digit `i+j` and the carry (R103). -/
def mulDigit (A B : Bank) (i : Fin 8) (acc : Vector Word 16 × Word) (j : Fin 8) : Vector Word 16 × Word :=
  let x := A[7 - j.val].toNat * B[7 - i.val].toNat + acc.1[i.val + j.val].toNat + acc.2.toNat
  (acc.1.set (i.val + j.val) (word (bitField x 63 0)), word (bitField x 127 64))

/-- Row `i` of the schoolbook product: eight digit products, then the carry into digit `i + 8` (R103). -/
def mulRow (A B : Bank) (t : Vector Word 16) (i : Fin 8) : Vector Word 16 :=
  let r := downwards.foldl (mulDigit A B i) (t, 0)
  r.1.set (i.val + 8) r.2

/-- `mul_schoolbook(A, B)`: the banks `(P, O)`, product and overflow (R103). -/
def mulSchoolbook (A B : Bank) : Bank × Bank :=
  let t := downwards.foldl (mulRow A B) (Vector.replicate 16 0)
  (bankOf fun w => t[7 - w.val], bankOf fun w => t[15 - w.val])

/-- One digit product of `mul_scalar` (R104). -/
def mulScalarDigit (A : Bank) (s : Word) (acc : Bank × Word) (j : Fin 8) : Bank × Word :=
  let x := A[7 - j.val].toNat * s.toNat + acc.2.toNat
  (acc.1.set (7 - j.val) (word (bitField x 63 0)), word (bitField x 127 64))

/-- `mul_scalar(A, s)`: the bank `P` and the carry-out word (R104). -/
def mulScalar (A : Bank) (s : Word) : Bank × Word :=
  downwards.foldl (mulScalarDigit A s) (utilZero, 0)

/-- Bank `Q` with bit `i` of its value set (R124). -/
def setBankBit (Q : Bank) (i : Nat) : Bank :=
  Q.set (7 - i / 64) (Q[7 - i / 64] ||| (1#64 <<< (i % 64)))

/-- The step of `div_long` for bit `i`, on the quotient so far and the running remainder (R124). -/
def divLongStep (N D : Bank) (i : Nat) (qr : Bank × Bank) : Bank × Bank :=
  let shifted := utilShiftLeft qr.2 1
  let R := shifted.set 7 (shifted[7] ||| (if bankBit N i then 1#64 else 0#64))
  if utilCompare R D ≥ 0 then (setBankBit qr.1 i, (utilSub R D).1) else (qr.1, R)

/-- The loop of `div_long` over the bits below `n`, from bit `n - 1` down to bit 0 (R124). -/
def divLongLoop (N D : Bank) : Nat → Bank × Bank → Bank × Bank
  | 0, qr => qr
  | i + 1, qr => divLongLoop N D i (divLongStep N D i qr)

/-- `div_long(N, D)`: status, quotient, remainder (R124). -/
def divLong (N D : Bank) : Word × Bank × Bank :=
  if utilCompare D (wide 0) = 0 then (stDbz, wide 0, wide 0)
  else
    let qr := divLongLoop N D 512 (utilZero, utilZero)
    (stOk, qr.1, qr.2)

/-- The step of `div_long_scalar` for bit `i`. The running remainder is a number, up to 65 bits wide within a
step (R125, spec/90_conflicts.md C8). -/
def divScalarStep (N : Bank) (s : Word) (i : Nat) (qr : Bank × Nat) : Bank × Nat :=
  let r := 2 * qr.2 + (bankBit N i).toNat
  if r ≥ s.toNat then (setBankBit qr.1 i, r - s.toNat) else (qr.1, r)

/-- The loop of `div_long_scalar` over the bits below `n`, from bit `n - 1` down to bit 0 (R125). -/
def divScalarLoop (N : Bank) (s : Word) : Nat → Bank × Nat → Bank × Nat
  | 0, qr => qr
  | i + 1, qr => divScalarLoop N s i (divScalarStep N s i qr)

/-- `div_long_scalar(N, s)`: status, quotient, remainder (R125). -/
def divLongScalar (N : Bank) (s : Word) : Word × Bank × Word :=
  if s = 0 then (stDbz, wide 0, 0)
  else
    let qr := divScalarLoop N s 512 (utilZero, 0)
    (stOk, qr.1, word qr.2)

end Sys2Proof.Machine
end

