-- ==== Sys2Proof/Machine/Script.lean ====
section
/-! DEFINITION. The host script notation: its statements, which of them are well-formed, and their expansion into
transactions (spec/30_encoding.md R86, R87). "It is a notation for sequences of transactions, not something the
engine decodes." -/

namespace Sys2Proof.Machine

/-- The four banks, under the spec's names (R87). -/
inductive BankName where
  | opa
  | opb
  | rlo
  | rhi
deriving DecidableEq, Repr

/-- Word `i` of a bank as a location of the window (R51). -/
def BankName.reg : BankName → Fin 8 → Reg
  | .opa, i => .opa i
  | .opb, i => .opb i
  | .rlo, i => .rlo i
  | .rhi, i => .rhi i

/-- The content of a bank. -/
def BankName.content (s : State) : BankName → Bank
  | .opa => s.opa
  | .opb => s.opb
  | .rlo => s.rlo
  | .rhi => s.rhi

/-- The banks a host can load: OPA and OPB (R87). -/
def BankName.isOperand : BankName → Bool
  | .opa => true
  | .opb => true
  | .rlo => false
  | .rhi => false

/-- The statements and pseudo-statements of a host script (R86, R87). -/
inductive Stmt where
  /-- `WR <reg>, <value>`. -/
  | wr (r : Reg) (v : Nat)
  /-- `RD <reg>`. -/
  | rd (r : Reg)
  /-- `MULW`, `MULS`, `DIVW` or `DIVS`. -/
  | command (i : Instr)
  /-- `LDW <bank>, <v>`. -/
  | ldw (b : BankName) (v : Nat)
  /-- `LDW <bank>, w0 to w7`, the most significant word first. -/
  | ldwWords (b : BankName) (w : Bank)
  /-- `LDS <v>`. -/
  | lds (v : Nat)
  /-- `RDW <bank>`. -/
  | rdw (b : BankName)
  /-- `MOVW <dst>, <src>`. -/
  | movw (dst src : BankName)
deriving DecidableEq, Repr

/-- The side conditions of R86 and R87: a value is a 64-bit number, a loaded number is below 2^512, and only OPA
and OPB are loaded. -/
def Stmt.wellFormed : Stmt → Bool
  | .wr _ v => v < 2 ^ 64
  | .rd _ => true
  | .command i => i.wellFormed
  | .ldw b v => b.isOperand && v < 2 ^ 512
  | .ldwWords b _ => b.isOperand
  | .lds v => v < 2 ^ 64
  | .rdw _ => true
  | .movw dst _ => dst.isOperand

/-- The eight indices in order (R87: "in index order 0 to 7"). -/
def indexOrder : List (Fin 8) := [0, 1, 2, 3, 4, 5, 6, 7]

/-- The eight writes of a load, in the given order. -/
def loadBank (b : BankName) (X : Bank) (order : List (Fin 8)) : List Event :=
  order.map fun i => .write (b.reg i).offset X[i]

/-- The eight reads of a bank, in index order. -/
def readBank (b : BankName) : List Event := indexOrder.map fun i => .read (b.reg i).offset

/-- The transactions a statement stands for. The engine's state matters to `MOVW` alone, whose writes carry the
words its reads returned: it has "no move command" (R87). -/
def Stmt.expand (s : State) : Stmt → List Event
  | .wr r v => [.write r.offset (word v)]
  | .rd r => [.read r.offset]
  | .command i => [.write Reg.cmd.offset (encode i)]
  | .ldw b v => loadBank b (wide v) indexOrder
  | .ldwWords b w => loadBank b w indexOrder
  | .lds v => [.write Reg.ops.offset (word v)]
  | .rdw b => readBank b
  | .movw dst src => readBank src ++ loadBank dst (src.content s) indexOrder

/-- A script run: each statement's transactions, in order, on the state the statements before it left. -/
def runScript : List Stmt → State → Host.Outcome State Fault Refusal
  | [], s => .next s
  | st :: sts, s =>
    match performAll (st.expand s) s with
    | .next t => runScript sts t
    | .fault f => .fault f
    | .refused r => .refused r

end Sys2Proof.Machine
end

