-- ==== Sys2Proof/Safety.lean ====
section
/-! DEFINITION. The terms claims use: what the host owes, what the machine keeps, and which registers an event can
touch. -/

namespace Sys2Proof.Machine

/-- The host's one duty on an event: a word written to CMD has bits 63 to 2 zero (spec/30_encoding.md R84). -/
def Event.lawful : Event → Bool
  | .read _ => true
  | .write off v => off != Reg.cmd.offset || wellFormedCommandWord v
  | .reset => true

/-- Every event still to come keeps the host's duty. -/
def State.lawful (s : State) : Bool := s.pending.all Event.lawful

/-- An event that runs no command and is no reset: a read, or a write elsewhere than to CMD. -/
def Event.quiet : Event → Bool
  | .read _ => true
  | .write off _ => off != Reg.cmd.offset
  | .reset => false

/-- An event that stores in no operand register and is no reset: a read, a command, or a write that is ignored. -/
def Event.keepsOperands : Event → Bool
  | .read _ => true
  | .write off _ =>
    match regAt off with
    | some (.opa _) | some (.opb _) | some .ops => false
    | some (.rlo _) | some (.rhi _) | some .rs | some .cmd | some .status | none => true
  | .reset => false

/-- The invariant of the engine: STATUS holds one of its two values (spec/10_state.md R29), and while it says
DivideByZero the results of that divide, all zero, still stand (spec/42_divide.md R123), since the host cannot
write a result register (R36) and the next command overwrites STATUS (R188). -/
def State.statusTruthful (s : State) : Prop :=
  legalStatus s.status = true ∧
    (s.status = stDbz → s.rlo = wide 0 ∧ (s.rhi = wide 0 ∨ s.rs = 0))

/-- The seven registers of two engines hold the same values (spec/10_state.md R20). -/
def State.sameRegisters (s t : State) : Prop :=
  s.opa = t.opa ∧ s.opb = t.opb ∧ s.ops = t.ops ∧ s.rlo = t.rlo ∧ s.rhi = t.rhi ∧ s.rs = t.rs ∧
    s.status = t.status

/-- `k` steps of the machine. -/
def runSteps (k : Nat) (s : State) : Host.Outcome State Fault Refusal := Sys2Proof.core.run k s

end Sys2Proof.Machine
end

