-- ==== Sys2Proof/Certificates/Slice0/Obligations.lean ====
section
/-! DEFINITION. The statements about the model, one `def Obligations.<Name> : Prop` each. In them `a`, `b`, `n`,
`d` of the spec are `val s.opa`, `val s.opb`, `s.ops.toNat`, written out. The fields `pending` and `answers` are the model's own, not
the spec's (log entry 1); a clause on them says how the model holds what arrives and what was read. -/

open Sys2Proof Sys2Proof.Machine

/-! ### The command word -/

/-- R80, R89 (spec/30_encoding.md): four words written out from the encoding, and what they decode to. -/
def Obligations.CommandWordsDecode : Prop :=
  decode 0x0000000000000000#64 = .ok .mulw ∧ decode 0x0000000000000001#64 = .ok .muls ∧
    decode 0x0000000000000002#64 = .ok .divw ∧ decode 0x0000000000000003#64 = .ok .divs

/-- A word decodes to a command exactly when it is the command's encoding: no bit is dropped, and no second word
means the same (spec/30_encoding.md sections 1 and 3). -/
def Obligations.DecodeInvertsEncode : Prop :=
  ∀ (v : Word) (i : Instr), decode v = .ok i ↔ v = encode i

/-- R89: "a word v selects the row when v AND mask = match". -/
def Obligations.DecodeFollowsOpcodeMap : Prop :=
  ∀ (v : Word) (i : Instr),
    decode v = .ok i ↔ ∃ row ∈ opcodeTable, row.instr = i ∧ v &&& row.mask = row.pattern

/-- R84: a CMD write with any of bits 63 to 2 set is refused, changing nothing; every other CMD write completes. -/
def Obligations.ReservedBitsAreRefused : Prop :=
  ∀ (v : Word) (s : State),
    ((∃ k, 2 ≤ k ∧ v.getLsbD k = true) →
      hostWrite 0x22#6 v s = .refused .reservedCommandBits) ∧
    ((∀ k, 2 ≤ k → v.getLsbD k = false) → ∃ t, hostWrite 0x22#6 v s = .next t)

/-- A step whose next event is a CMD write runs the command decoded, whole, within that write (R30, R80, R205).
That arriving events stand in a pending list is the model's choice (log entry 1). -/
def Obligations.StepRunsTheDecodedCommand : Prop :=
  ∀ (s : State) (v : Word) (es : List Event) (i : Instr),
    s.pending = .write 0x22#6 v :: es → decode v = .ok i → step s = exec i { s with pending := es }

/-- The word placed for the next step is the one that runs, on the state as it was (log entry 3). -/
def Obligations.PlacedCommandRunsNext : Prop :=
  ∀ (s : State) (nbits w : Nat) (i : Instr),
    decodeTableWord nbits w = some i → step (s.withFetchWord nbits w) = exec i s

/-! ### The Multiply Engine -/

/-- R100, whole: the CMD write of MULW's word completes with the pseudocode's results and frame, and each corner
case and the worked example of the rule. -/
def Obligations.MulwRule : Prop :=
  ∀ s : State, ∃ t, exec .mulw s = .next t ∧
    hostWrite 0x22#6 0x0000000000000000#64 s = .next t ∧
    t.rlo = wide (val s.opa * val s.opb % 2 ^ 512) ∧
    t.rhi = wide (val s.opa * val s.opb / 2 ^ 512) ∧
    t.status = stOk ∧
    t.opa = s.opa ∧ t.opb = s.opb ∧ t.ops = s.ops ∧ t.rs = s.rs ∧
    t.pending = s.pending ∧ t.answers = s.answers ∧
    (val s.opa = 0 ∨ val s.opb = 0 → t.rlo = wide 0 ∧ t.rhi = wide 0) ∧
    (val s.opb = 1 → t.rlo = s.opa ∧ t.rhi = wide 0) ∧
    (val s.opa = 1 → t.rlo = s.opb ∧ t.rhi = wide 0) ∧
    (∀ k, k < 512 → val s.opb = 2 ^ k →
      val t.rlo = (val s.opa <<< k) % 2 ^ 512 ∧ val t.rhi = val s.opa >>> (512 - k)) ∧
    (val s.opa = 2 ^ 512 - 1 → val s.opb = 2 ^ 512 - 1 → t.rlo = wide 1 ∧ val t.rhi = 2 ^ 512 - 2) ∧
    (val s.opa = 2 ^ 512 - 1 → val s.opb = 2 → val t.rlo = 2 ^ 512 - 2 ∧ t.rhi = wide 1)

/-- R101, whole: the CMD write of MULS's word completes with the pseudocode's results and frame, each corner case,
the agreement with MULW, and the worked example of the rule. -/
def Obligations.MulsRule : Prop :=
  ∀ s : State, ∃ t, exec .muls s = .next t ∧
    hostWrite 0x22#6 0x0000000000000001#64 s = .next t ∧
    t.rlo = wide (val s.opa * s.ops.toNat % 2 ^ 512) ∧
    t.rs.toNat = val s.opa * s.ops.toNat / 2 ^ 512 ∧
    t.status = stOk ∧
    t.opa = s.opa ∧ t.opb = s.opb ∧ t.ops = s.ops ∧ t.rhi = s.rhi ∧
    t.pending = s.pending ∧ t.answers = s.answers ∧
    (val s.opa = 0 ∨ s.ops = 0 → t.rlo = wide 0 ∧ t.rs = 0) ∧
    (s.ops = 1 → t.rlo = s.opa ∧ t.rs = 0) ∧
    (∀ k, k < 64 → s.ops.toNat = 2 ^ k →
      val t.rlo = (val s.opa <<< k) % 2 ^ 512 ∧ t.rs.toNat = val s.opa >>> (512 - k)) ∧
    (val s.opa = 2 ^ 512 - 1 → s.ops.toNat = 2 ^ 64 - 1 →
      val t.rlo = 2 ^ 512 - 2 ^ 64 + 1 ∧ t.rs = 0xFFFFFFFFFFFFFFFE#64) ∧
    (∀ X : Bank, ∃ u, exec .muls { s with opb := X } = .next u ∧ u.rlo = t.rlo ∧ u.rs = t.rs) ∧
    (∃ w, exec .mulw { s with opb := wide s.ops.toNat } = .next w ∧ w.rlo = t.rlo ∧ w.rhi[7] = t.rs ∧
      ∀ i : Fin 8, i.val < 7 → w.rhi[i] = 0) ∧
    (val s.opa = 2 ^ 512 - 1 → s.ops = 2 → val t.rlo = 2 ^ 512 - 2 ∧ t.rs = 1)

/-- R102: the exact product, nothing wraps and nothing is truncated, and the result is the only pair that
satisfies the law. -/
def Obligations.ExactProductLaw : Prop :=
  ∀ s : State,
    (∃ t, exec .mulw s = .next t ∧
      val t.rhi * 2 ^ 512 + val t.rlo = val s.opa * val s.opb ∧
      val t.rlo = val s.opa * val s.opb % 2 ^ 512 ∧ val t.rhi = val s.opa * val s.opb / 2 ^ 512 ∧
      ∀ lo hi : Bank, val hi * 2 ^ 512 + val lo = val s.opa * val s.opb → lo = t.rlo ∧ hi = t.rhi) ∧
    (∃ t, exec .muls s = .next t ∧ t.rs.toNat * 2 ^ 512 + val t.rlo = val s.opa * s.ops.toNat) ∧
    val s.opa * val s.opb ≤ 2 ^ 1024 - 2 ^ 513 + 1

/-- R107: the overflow of MULS fits one word, and the largest one is reached. -/
def Obligations.ScalarOverflowFitsOneWord : Prop :=
  (2 ^ 512 - 1) * (2 ^ 64 - 1) < 2 ^ 576 ∧
  ∀ s : State, ∃ t, exec .muls s = .next t ∧
    val s.opa * s.ops.toNat ≤ (2 ^ 512 - 1) * (2 ^ 64 - 1) ∧
    val s.opa * s.ops.toNat < 2 ^ 576 ∧
    val s.opa * s.ops.toNat / 2 ^ 512 ≤ 2 ^ 64 - 2 ∧
    t.rs.toNat = val s.opa * s.ops.toNat / 2 ^ 512 ∧
    (val s.opa = 2 ^ 512 - 1 → s.ops.toNat = 2 ^ 64 - 1 → t.rs = 0xFFFFFFFFFFFFFFFE#64)

/-- R106: the laws of D0 section 8 for MULW, with the utilities `shiftLeft` and `shiftRight`. -/
def Obligations.MultiplyLaws : Prop :=
  ∀ s : State, ∃ t, exec .mulw s = .next t ∧
    (s.opb = wide 1 → t.rlo = s.opa ∧ t.rhi = wide 0) ∧
    (s.opb = wide 0 → t.rlo = wide 0 ∧ t.rhi = wide 0) ∧
    (s.opa = wide 0 → t.rlo = wide 0 ∧ t.rhi = wide 0) ∧
    (∀ k, k < 512 → s.opb = wide (2 ^ k) →
      t.rlo = utilShiftLeft s.opa (BitVec.ofNat 16 k) ∧
        t.rhi = utilShiftRight s.opa (BitVec.ofNat 16 (512 - k))) ∧
    (s.opb = utilSetScalar 2 → ∃ u, exec .muls { s with ops := 2 } = .next u ∧
      u.rlo = t.rlo ∧ t.rhi = utilSetScalar u.rs) ∧
    (∃ u, exec .mulw { s with opa := s.opb, opb := s.opa } = .next u ∧ u.rlo = t.rlo ∧ u.rhi = t.rhi)

/-- The schoolbook procedure computes what MULW writes (R103); its 128-bit sum never overflows; and when a row
starts, no digit from `i + 8` up has been written, so the row's carry loses nothing. -/
def Obligations.SchoolbookComputesTheProduct : Prop :=
  (∀ s : State, ∃ t, exec .mulw s = .next t ∧ mulSchoolbook s.opa s.opb = (t.rlo, t.rhi)) ∧
  (∀ x y d c : Word, x.toNat * y.toNat + d.toNat + c.toNat ≤ 2 ^ 128 - 1) ∧
  (∀ (A B : Bank) (i k : Nat) (hk : k < 16), i < 8 → i + 8 ≤ k →
    ((downwards.take i).foldl (mulRow A B) (Vector.replicate 16 0))[k] = 0)

/-- The single pass of digit products computes what MULS writes (R104); its 128-bit sum never overflows. -/
def Obligations.SinglePassComputesTheScalarProduct : Prop :=
  (∀ s : State, ∃ t, exec .muls s = .next t ∧ mulScalar s.opa s.ops = (t.rlo, t.rs)) ∧
  (∀ x y c : Word, x.toNat * y.toNat + c.toNat < 2 ^ 128)

/-! ### The Divide Engine -/

/-- R120, whole: the CMD write of DIVW's word completes with the pseudocode's results and frame, each corner case
and the worked example of the rule. -/
def Obligations.DivwRule : Prop :=
  ∀ s : State, ∃ t, exec .divw s = .next t ∧
    hostWrite 0x22#6 0x0000000000000002#64 s = .next t ∧
    (val s.opb = 0 → t.rlo = wide 0 ∧ t.rhi = wide 0 ∧ t.status = stDbz) ∧
    (val s.opb ≠ 0 →
      t.rlo = wide (val s.opa / val s.opb) ∧ t.rhi = wide (val s.opa % val s.opb) ∧ t.status = stOk) ∧
    t.opa = s.opa ∧ t.opb = s.opb ∧ t.ops = s.ops ∧ t.rs = s.rs ∧
    t.pending = s.pending ∧ t.answers = s.answers ∧
    (val s.opa = 0 → val s.opb ≠ 0 → t.rlo = wide 0 ∧ t.rhi = wide 0 ∧ t.status = stOk) ∧
    (val s.opb = 1 → t.rlo = s.opa ∧ t.rhi = wide 0) ∧
    (val s.opa < val s.opb → t.rlo = wide 0 ∧ t.rhi = s.opa) ∧
    (val s.opa = val s.opb → val s.opb ≠ 0 → t.rlo = wide 1 ∧ t.rhi = wide 0) ∧
    (∀ k, k < 512 → val s.opb = 2 ^ k → val t.rlo = val s.opa >>> k ∧ val t.rhi = val s.opa % 2 ^ k) ∧
    (val s.opa = 2 ^ 512 - 1 → val s.opb = 1 → ∀ i : Fin 8, t.rlo[i] = 0xFFFFFFFFFFFFFFFF#64) ∧
    (2 ^ 511 < val s.opb → t.rlo = wide 0 ∨ t.rlo = wide 1) ∧
    (∀ x : Word, ∃ u, exec .divw { s with ops := x } = .next u ∧
      u.rlo = t.rlo ∧ u.rhi = t.rhi ∧ u.status = t.status) ∧
    (val s.opa = 12345678910111213 → val s.opb = 10 →
      t.rlo = wide 1234567891011121 ∧ t.rhi = wide 3 ∧ t.status = stOk)

/-- R121, whole: the CMD write of DIVS's word completes with the pseudocode's results and frame, each corner case,
the agreement with DIVW, and the worked example of the rule. -/
def Obligations.DivsRule : Prop :=
  ∀ s : State, ∃ t, exec .divs s = .next t ∧
    hostWrite 0x22#6 0x0000000000000003#64 s = .next t ∧
    (s.ops = 0 → t.rlo = wide 0 ∧ t.rs = 0 ∧ t.status = stDbz) ∧
    (s.ops ≠ 0 →
      t.rlo = wide (val s.opa / s.ops.toNat) ∧ t.rs.toNat = val s.opa % s.ops.toNat ∧ t.status = stOk) ∧
    t.opa = s.opa ∧ t.opb = s.opb ∧ t.ops = s.ops ∧ t.rhi = s.rhi ∧
    t.pending = s.pending ∧ t.answers = s.answers ∧
    (val s.opa = 0 → s.ops ≠ 0 → t.rlo = wide 0 ∧ t.rs = 0 ∧ t.status = stOk) ∧
    (s.ops = 1 → t.rlo = s.opa ∧ t.rs = 0) ∧
    (val s.opa < s.ops.toNat → t.rlo = wide 0 ∧ t.rs = s.opa[7] ∧ ∀ i : Fin 8, i.val < 7 → s.opa[i] = 0) ∧
    (∀ k, k < 64 → s.ops.toNat = 2 ^ k → val t.rlo = val s.opa >>> k ∧ t.rs.toNat = val s.opa % 2 ^ k) ∧
    (val s.opa = 2 ^ 512 - 1 → s.ops.toNat = 2 ^ 64 - 1 → (∀ i : Fin 8, t.rlo[i] = 1) ∧ t.rs = 0) ∧
    (∀ X : Bank, ∃ u, exec .divs { s with opb := X } = .next u ∧
      u.rlo = t.rlo ∧ u.rs = t.rs ∧ u.status = t.status) ∧
    (∃ w, exec .divw { s with opb := wide s.ops.toNat } = .next w ∧ w.status = t.status ∧ w.rlo = t.rlo ∧
      w.rhi[7] = t.rs ∧ ∀ i : Fin 8, i.val < 7 → w.rhi[i] = 0) ∧
    (val s.opa = 12345678910111213 → s.ops = 10 →
      t.rlo = wide 1234567891011121 ∧ t.rs = 3 ∧ t.status = stOk)

/-- R122: for a divisor above 0 the command produces the one pair `(q, r)` with `n = q * d + r` and `r < d`. -/
def Obligations.DivisionIdentityLaw : Prop :=
  ∀ s : State,
    (val s.opb ≠ 0 → ∃ t, exec .divw s = .next t ∧
      val s.opa = val t.rlo * val s.opb + val t.rhi ∧ val t.rhi < val s.opb ∧
      val t.rlo = val s.opa / val s.opb ∧ val t.rhi = val s.opa % val s.opb ∧
      ∀ q r : Nat, val s.opa = q * val s.opb + r → r < val s.opb → q = val t.rlo ∧ r = val t.rhi) ∧
    (s.ops ≠ 0 → ∃ t, exec .divs s = .next t ∧
      val s.opa = val t.rlo * s.ops.toNat + t.rs.toNat ∧ t.rs.toNat < s.ops.toNat ∧
      val t.rlo = val s.opa / s.ops.toNat ∧ t.rs.toNat = val s.opa % s.ops.toNat ∧
      ∀ q r : Nat, val s.opa = q * s.ops.toNat + r → r < s.ops.toNat → q = val t.rlo ∧ r = t.rs.toNat)

/-- R123: a zero divisor, that is, eight zero words or a zero OPS, gives all-zero results and `ST_DBZ` whatever
the dividend, and nothing else changes. -/
def Obligations.DivideByZeroOutcome : Prop :=
  ∀ s : State,
    (val s.opb = 0 ↔ ∀ i : Fin 8, s.opb[i] = 0) ∧
    (val s.opb = 0 → ∃ t, exec .divw s = .next t ∧ (∀ i : Fin 8, t.rlo[i] = 0) ∧ (∀ i : Fin 8, t.rhi[i] = 0) ∧
      t.status = 0xFFFFFFFFFFFFFFFF#64 ∧ t.opa = s.opa ∧ t.opb = s.opb ∧ t.ops = s.ops ∧ t.rs = s.rs) ∧
    (s.ops = 0 → ∃ t, exec .divs s = .next t ∧ (∀ i : Fin 8, t.rlo[i] = 0) ∧ t.rs = 0 ∧
      t.status = 0xFFFFFFFFFFFFFFFF#64 ∧ t.opa = s.opa ∧ t.opb = s.opb ∧ t.ops = s.ops ∧ t.rhi = s.rhi)

/-- R129: the remainder of DIVS fits one word, and the largest one is reached. -/
def Obligations.ScalarRemainderFitsOneWord : Prop :=
  ∀ s : State, s.ops ≠ 0 → ∃ t, exec .divs s = .next t ∧
    t.rs.toNat = val s.opa % s.ops.toNat ∧ t.rs.toNat < s.ops.toNat ∧
    t.rs.toNat ≤ 0xFFFFFFFFFFFFFFFE ∧
    (s.ops.toNat = 2 ^ 64 - 1 → val s.opa = 2 ^ 64 - 2 → t.rs = 0xFFFFFFFFFFFFFFFE#64)

/-- R127: the edge-case table, for DIVW as written and for DIVS with the divisor in OPS and the remainder in RS. -/
def Obligations.DivideEdgeCaseTable : Prop :=
  ∀ s : State,
    (∃ t, exec .divw s = .next t ∧
      (val s.opa = 0 → val s.opb ≠ 0 → t.rlo = wide 0 ∧ t.rhi = wide 0 ∧ t.status = stOk) ∧
      (val s.opb = 0 → t.rlo = wide 0 ∧ t.rhi = wide 0 ∧ t.status = stDbz) ∧
      (val s.opa ≠ 0 → val s.opb = 1 → t.rlo = s.opa ∧ t.rhi = wide 0 ∧ t.status = stOk) ∧
      (val s.opa = 1 → 1 < val s.opb → t.rlo = wide 0 ∧ t.rhi = wide 1 ∧ t.status = stOk) ∧
      (val s.opa = 1 → val s.opb = 1 → t.rlo = wide 1 ∧ t.rhi = wide 0 ∧ t.status = stOk) ∧
      (∀ k, k < 512 → val s.opb = 2 ^ k →
        val t.rlo = val s.opa >>> k ∧ val t.rhi = val s.opa % 2 ^ k ∧ t.status = stOk)) ∧
    (∃ t, exec .divs s = .next t ∧
      (val s.opa = 0 → s.ops ≠ 0 → t.rlo = wide 0 ∧ t.rs = 0 ∧ t.status = stOk) ∧
      (s.ops = 0 → t.rlo = wide 0 ∧ t.rs = 0 ∧ t.status = stDbz) ∧
      (val s.opa ≠ 0 → s.ops = 1 → t.rlo = s.opa ∧ t.rs = 0 ∧ t.status = stOk) ∧
      (val s.opa = 1 → 1 < s.ops.toNat → t.rlo = wide 0 ∧ t.rs = 1 ∧ t.status = stOk) ∧
      (val s.opa = 1 → s.ops = 1 → t.rlo = wide 1 ∧ t.rs = 0 ∧ t.status = stOk) ∧
      (∀ k, k < 64 → s.ops.toNat = 2 ^ k →
        val t.rlo = val s.opa >>> k ∧ t.rs.toNat = val s.opa % 2 ^ k ∧ t.status = stOk))

/-- Division on exact multiples, and the link between the engines: if MULW gives RHI = 0 and the multiplier is not
0, DIVW on that product and multiplier gives the multiplicand back with remainder 0 (spec/42_divide.md section 6). -/
def Obligations.DivideUndoesMultiply : Prop :=
  (∀ (s : State) (q : Nat), val s.opb ≠ 0 → val s.opa = q * val s.opb →
    ∃ t, exec .divw s = .next t ∧ t.rlo = wide q ∧ t.rhi = wide 0) ∧
  (∀ s t : State, exec .mulw s = .next t → t.rhi = wide 0 → val s.opb ≠ 0 →
    ∃ u, exec .divw { t with opa := t.rlo } = .next u ∧ u.rlo = s.opa ∧ u.rhi = wide 0 ∧ u.status = stOk)

/-- The oracle identities of D0's tests (R163): multiplying by a power of two shifts left, dividing by it shifts
right, and the remainder is the low bits, by two shifts. -/
def Obligations.ShiftOraclesAgree : Prop :=
  ∀ (s : State) (k : Nat), k < 512 → s.opb = wide (2 ^ k) →
    (∃ t, exec .mulw s = .next t ∧ t.rlo = utilShiftLeft s.opa (BitVec.ofNat 16 k) ∧
      t.rhi = utilShiftRight s.opa (BitVec.ofNat 16 (512 - k))) ∧
    (∃ t, exec .divw s = .next t ∧ t.rlo = utilShiftRight s.opa (BitVec.ofNat 16 k) ∧
      t.rhi = utilShiftRight (utilShiftLeft s.opa (BitVec.ofNat 16 (512 - k))) (BitVec.ofNat 16 (512 - k)) ∧
      ∀ i, i < 512 → bankBit t.rhi i = (decide (i < k) && bankBit s.opa i))

/-- Binary long division computes what DIVW writes, the divide-by-zero outcome included (R124). -/
def Obligations.LongDivisionComputesDivw : Prop :=
  ∀ s : State, ∃ t, exec .divw s = .next t ∧ divLong s.opa s.opb = (t.status, t.rlo, t.rhi)

/-- One step of binary long division keeps the loop invariant of R124, and its shift loses no bit. The third
premise says that the quotient bits still to come are zero, as they are when the loop starts. -/
def Obligations.LongDivisionStepKeepsTheIdentity : Prop :=
  ∀ (N D Q R : Bank) (i : Nat), i < 512 →
    val N >>> (i + 1) = (val Q >>> (i + 1)) * val D + val R → val R < val D → val Q % 2 ^ (i + 1) = 0 →
    val R < 2 ^ 511 ∧ val (utilShiftLeft R 1) = 2 * val R ∧
    val N >>> i = (val (divLongStep N D i (Q, R)).1 >>> i) * val D + val (divLongStep N D i (Q, R)).2 ∧
    val (divLongStep N D i (Q, R)).2 < val D ∧
    val (divLongStep N D i (Q, R)).1 % 2 ^ i = 0

/-- Binary long division by a scalar computes what DIVS writes, the divide-by-zero outcome included; and from a
running remainder below the divisor, a step's remainder is at most `2 * s - 1`, below `2^65`, before the subtraction
and below the divisor again after it (R125). -/
def Obligations.ScalarLongDivisionComputesDivs : Prop :=
  (∀ s : State, ∃ t, exec .divs s = .next t ∧ divLongScalar s.opa s.ops = (t.status, t.rlo, t.rs)) ∧
  ∀ (N Q : Bank) (s : Word) (i r : Nat), r < s.toNat →
    2 * r + (bankBit N i).toNat ≤ 2 * s.toNat - 1 ∧ 2 * r + (bankBit N i).toNat < 2 ^ 65 ∧
      (divScalarStep N s i (Q, r)).2 < s.toNat

/-! ### What commands touch and depend on -/

/-- R34, R35: a command completes, writes no operand register, and writes of the result registers only those it
owns. -/
def Obligations.CommandWritesOnlyItsResults : Prop :=
  ∀ (i : Instr) (s : State), ∃ t, exec i s = .next t ∧
    t.opa = s.opa ∧ t.opb = s.opb ∧ t.ops = s.ops ∧
    (i = .mulw ∨ i = .divw → t.rs = s.rs) ∧ (i = .muls ∨ i = .divs → t.rhi = s.rhi) ∧
    t.pending = s.pending ∧ t.answers = s.answers

/-- Through the window: after a command every slot but the owned results and STATUS reads as before
(spec/10_state.md section 5). -/
def Obligations.CommandLeavesOtherSlots : Prop :=
  ∀ (i : Instr) (s t : State) (off : Offset), exec i s = .next t →
    ¬ (0x10 ≤ off.toNat ∧ off.toNat ≤ 0x17) → off ≠ 0x23#6 →
    (i = .mulw ∨ i = .divw → ¬ (0x18 ≤ off.toNat ∧ off.toNat ≤ 0x1F)) →
    (i = .muls ∨ i = .divs → off ≠ 0x21#6) →
    hostRead off t = hostRead off s

/-- R181: STATUS after a command is `ST_DBZ` exactly for DIVW with OPB = 0 and for DIVS with OPS = 0, with the
values recorded; in every other execution it is `ST_OK`. The dividend and the divisor stay where they are. -/
def Obligations.StatusTellsDivideByZero : Prop :=
  stOk = 0x0000000000000000#64 ∧ stDbz = 0xFFFFFFFFFFFFFFFF#64 ∧
  ∀ (i : Instr) (s : State), ∃ t, exec i s = .next t ∧
    (t.status = stDbz ↔ (i = .divw ∧ ∀ k : Fin 8, s.opb[k] = 0) ∨ (i = .divs ∧ s.ops = 0)) ∧
    (t.status = stOk ↔ ¬ ((i = .divw ∧ ∀ k : Fin 8, s.opb[k] = 0) ∨ (i = .divs ∧ s.ops = 0))) ∧
    (t.status = stDbz → i = .divw → t.rlo = wide 0 ∧ t.rhi = wide 0) ∧
    (t.status = stDbz → i = .divs → t.rlo = wide 0 ∧ t.rs = 0) ∧
    t.opa = s.opa ∧ t.opb = s.opb ∧ t.ops = s.ops

/-- R12: a command's results depend on the operand registers it names and on nothing else, and it always
completes. -/
def Obligations.CommandDependsOnItsOperandsOnly : Prop :=
  ∀ (i : Instr) (s u : State), s.opa = u.opa →
    (i = .mulw ∨ i = .divw → s.opb = u.opb) → (i = .muls ∨ i = .divs → s.ops = u.ops) →
    ∃ t w, exec i s = .next t ∧ exec i u = .next w ∧ t.rlo = w.rlo ∧ t.status = w.status ∧
      (i = .mulw ∨ i = .divw → t.rhi = w.rhi) ∧ (i = .muls ∨ i = .divs → t.rs = w.rs)

/-! ### Reset -/

/-- R38, R200: the values after reset, and a `Reset` event that brings every word to them from any state, in one
step. That the events after it are still to come, and that the values read before it stay read, is the model's
choice (log entry 4). -/
def Obligations.ResetClearsEveryWord : Prop :=
  ((∀ i : Fin 8, State.reset.opa[i] = 0 ∧ State.reset.opb[i] = 0 ∧ State.reset.rlo[i] = 0 ∧
      State.reset.rhi[i] = 0) ∧
    State.reset.ops = 0 ∧ State.reset.rs = 0 ∧ State.reset.status = 0x0000000000000000#64) ∧
  ∀ (s : State) (es : List Event), s.pending = .reset :: es →
    ∃ t, step s = .next t ∧ t.sameRegisters State.reset ∧ t.pending = es ∧ t.answers = s.answers

/-- R202: straight after reset every operand is 0, a legal one: MULW and MULS compute 0, DIVW and DIVS are a
divide by zero. -/
def Obligations.CommandsStraightAfterReset : Prop :=
  exec .mulw State.reset = .next { State.reset with rlo := wide 0, rhi := wide 0, status := stOk } ∧
  exec .muls State.reset = .next { State.reset with rlo := wide 0, rs := 0, status := stOk } ∧
  exec .divw State.reset = .next { State.reset with rlo := wide 0, rhi := wide 0, status := stDbz } ∧
  exec .divs State.reset = .next { State.reset with rlo := wide 0, rs := 0, status := stDbz }

/-- R201: after reset, and whenever nothing reaches it, the engine executes nothing. That such a step is a step
which changes nothing is the model's choice (log entry 2). -/
def Obligations.IdleEngineDoesNothing : Prop :=
  step State.reset = .next State.reset ∧ ∀ s : State, s.pending = [] → step s = .next s

/-! ### The window -/

/-- R57: what every offset reads as, and that a read changes no register, starts nothing and is idempotent. -/
def Obligations.HostReadReturnsTheRegister : Prop :=
  ∀ s : State,
    (∀ i : Fin 8, hostRead (BitVec.ofNat 6 (0x00 + i.val)) s = s.opa[i]) ∧
    (∀ i : Fin 8, hostRead (BitVec.ofNat 6 (0x08 + i.val)) s = s.opb[i]) ∧
    (∀ i : Fin 8, hostRead (BitVec.ofNat 6 (0x10 + i.val)) s = s.rlo[i]) ∧
    (∀ i : Fin 8, hostRead (BitVec.ofNat 6 (0x18 + i.val)) s = s.rhi[i]) ∧
    hostRead 0x20#6 s = s.ops ∧ hostRead 0x21#6 s = s.rs ∧ hostRead 0x22#6 s = 0 ∧
    hostRead 0x23#6 s = s.status ∧ (∀ off : Offset, 0x24 ≤ off.toNat → hostRead off s = 0) ∧
    ∀ off : Offset, ∃ t, perform (.read off) s = .next t ∧ t.answers = s.answers ++ [hostRead off s] ∧
      t.sameRegisters s ∧ t.pending = s.pending ∧ ∀ other : Offset, hostRead other t = hostRead other s

/-- R58: what a write does at every offset: operand registers store, CMD executes, all else ignores it. -/
def Obligations.HostWriteStoresOrIgnores : Prop :=
  ∀ (s : State) (v : Word),
    (∀ i : Fin 8, hostWrite (BitVec.ofNat 6 (0x00 + i.val)) v s = .next { s with opa := s.opa.set i v }) ∧
    (∀ i : Fin 8, hostWrite (BitVec.ofNat 6 (0x08 + i.val)) v s = .next { s with opb := s.opb.set i v }) ∧
    hostWrite 0x20#6 v s = .next { s with ops := v } ∧
    hostWrite 0x22#6 v s = execute v s ∧
    ∀ off : Offset, 0x10 ≤ off.toNat → off ≠ 0x20#6 → off ≠ 0x22#6 → hostWrite off v s = .next s

/-- A write elsewhere than to CMD changes at most the slot written: that slot reads as the value if it is an
operand register and as before if not, and every other slot reads as before (spec/20_memory.md section 3). -/
def Obligations.HostWriteTouchesOneSlot : Prop :=
  ∀ (s : State) (off : Offset) (v : Word), off ≠ 0x22#6 →
    ∃ t, hostWrite off v s = .next t ∧
      hostRead off t = (if off.toNat ≤ 0x0F ∨ off = 0x20#6 then v else hostRead off s) ∧
      (∀ other : Offset, other ≠ off → hostRead other t = hostRead other s) ∧
      t.pending = s.pending ∧ t.answers = s.answers

/-- R207, R208: without a reset, an operand register changes only by a host write to it, RLO and STATUS only by a
command, RHI only by MULW or DIVW, RS only by MULS or DIVS. -/
def Obligations.OnlyOwnersChangeRegisters : Prop :=
  ∀ (e : Event) (s t : State), perform e s = .next t → e ≠ .reset →
    (t.opa ≠ s.opa → ∃ (i : Fin 8) (v : Word), e = .write (BitVec.ofNat 6 (0x00 + i.val)) v) ∧
    (t.opb ≠ s.opb → ∃ (i : Fin 8) (v : Word), e = .write (BitVec.ofNat 6 (0x08 + i.val)) v) ∧
    (t.ops ≠ s.ops → ∃ v : Word, e = .write 0x20#6 v) ∧
    (t.rlo ≠ s.rlo ∨ t.status ≠ s.status → ∃ i : Instr, e = .write 0x22#6 (encode i)) ∧
    (t.rhi ≠ s.rhi → e = .write 0x22#6 0#64 ∨ e = .write 0x22#6 2#64) ∧
    (t.rs ≠ s.rs → e = .write 0x22#6 1#64 ∨ e = .write 0x22#6 3#64)

/-- Results and STATUS keep their values across any run of reads and writes without a command or a reset
(spec/70_reset_and_hazards.md section 3). -/
def Obligations.ResultsPersistWithoutCommands : Prop :=
  ∀ (es : List Event) (s : State), es.all Event.quiet = true →
    ∃ t, performAll es s = .next t ∧ t.rlo = s.rlo ∧ t.rhi = s.rhi ∧ t.rs = s.rs ∧ t.status = s.status

/-- Operands keep their values across any run of reads, commands and ignored writes
(spec/70_reset_and_hazards.md section 3). -/
def Obligations.OperandsPersistAcrossCommands : Prop :=
  ∀ (es : List Event) (s : State), es.all Event.keepsOperands = true → es.all Event.lawful = true →
    ∃ t, performAll es s = .next t ∧ t.opa = s.opa ∧ t.opb = s.opb ∧ t.ops = s.ops

/-- Loading a bank is eight writes, and their order does not matter, since no command lies between them
(spec/30_encoding.md section 6). -/
def Obligations.LoadOrderDoesNotMatter : Prop :=
  ∀ (X : Bank) (order : List (Fin 8)) (s : State), order.Perm indexOrder →
    performAll (loadBank .opa X order) s = .next { s with opa := X } ∧
    performAll (loadBank .opb X order) s = .next { s with opb := X }

/-- A command placed after only some of the eight writes of a load, in whatever order they come, computes with the
bank as it then stands, partly new and partly old, and completes; for OPA and for OPB (R206). -/
def Obligations.PartlyLoadedOperandIsUsedAsItStands : Prop :=
  ∀ (X : Bank) (order : List (Fin 8)) (k : Nat) (i : Instr) (s : State), order.Perm indexOrder → k ≤ 8 →
    (∃ u t, performAll (loadBank .opa X (order.take k) ++ [.write 0x22#6 (encode i)]) s = .next t ∧
      exec i { s with opa := u } = .next t ∧ t.opa = u ∧
      ∀ j : Fin 8, u[j] = if j ∈ order.take k then X[j] else s.opa[j]) ∧
    (∃ u t, performAll (loadBank .opb X (order.take k) ++ [.write 0x22#6 (encode i)]) s = .next t ∧
      exec i { s with opb := u } = .next t ∧ t.opb = u ∧
      ∀ j : Fin 8, u[j] = if j ∈ order.take k then X[j] else s.opb[j])

/-- `MOVW` copies a readable bank to OPA or OPB through the host, returning its eight words on the way, and
changes nothing else (spec/30_encoding.md section 6). That no other host's transaction falls between the sixteen
of the statement is the model's choice (log entry 12). -/
def Obligations.MovwCopiesABank : Prop :=
  ∀ (dst src : BankName) (s : State), dst.isOperand = true →
    ∃ t, runScript [.movw dst src] s = .next t ∧ dst.content t = src.content s ∧
      (∀ other : BankName, other ≠ dst → other.content t = other.content s) ∧
      t.ops = s.ops ∧ t.rs = s.rs ∧ t.status = s.status ∧
      t.answers = s.answers ++ (src.content s).toList ∧ t.pending = s.pending

/-! ### Runs -/

/-- R62: one step performs one event, in the order of arrival, each taking full effect before the next begins.
That the events still to come are a list in the state is the model's choice (log entry 1). -/
def Obligations.StepsPerformEventsInOrder : Prop :=
  ∀ s : State, runSteps s.pending.length s = performAll s.pending { s with pending := [] }

/-- R183: every event but a CMD write with a reserved bit set completes: no command raises anything, nor does a
write to a read-only register or reserved slot, nor a read of a write-only or reserved one. -/
def Obligations.LawfulEventsComplete : Prop :=
  ∀ (e : Event) (s : State), e.lawful = true → ∃ t, perform e s = .next t

/-- An engine whose pending events keep the host's duty never stops: after `k` steps it is in a next state, with
the first `k` events served and the duty still kept (spec/70_reset_and_hazards.md section 3). Two things in it are
the model's choice: that arriving events stand in a pending list (log entry 1), and that a step with no event left is
a step which changes nothing, which answers for every `k` above their number (log entry 2). -/
def Obligations.LawfulRunNeverStops : Prop :=
  ∀ (s : State) (k : Nat), s.lawful = true →
    ∃ t, runSteps k s = .next t ∧ t.pending = s.pending.drop k ∧ t.lawful = true

/-- Every step keeps the invariant on STATUS: it holds one of its two values, and while it says DivideByZero the
zero results of that divide still stand (spec/10_state.md section 4, spec/42_divide.md section 2). That a step with no
event pending changes nothing is the model's choice (log entry 2). -/
def Obligations.StepKeepsStatusTruthful : Prop :=
  ∀ s t : State, s.statusTruthful → step s = .next t → t.statusTruthful

/-- The invariant on STATUS holds at reset (R38, R29). -/
def Obligations.ResetStatusIsTruthful : Prop := State.reset.statusTruthful

/-- R33, R37: the engine keeps no hidden state: two engines whose seven registers agree answer every run of events
alike and end with the same registers, whatever came before. That the values read are a list in the state is the
model's choice (log entry 1). -/
def Obligations.NoHiddenState : Prop :=
  ∀ (es : List Event) (s u t : State), s.sameRegisters u → performAll es s = .next t →
    ∃ (w : State) (out : List Word), performAll es u = .next w ∧ t.sameRegisters w ∧
      t.answers = s.answers ++ out ∧ w.answers = u.answers ++ out

/-! ### The word-array utilities -/

/-- R151, R152, R153, R161: `zero`, `copy`, `setScalar`, `or`. -/
def Obligations.WordUtilitiesFollowTheirRules : Prop :=
  utilZero = wide 0 ∧ (∀ X : Bank, utilCopy X = X) ∧
  (∀ s : Word, utilSetScalar s = wide s.toNat ∧ val (utilSetScalar s) = s.toNat ∧
    (utilSetScalar s)[7] = s ∧ ∀ i : Fin 8, i.val < 7 → (utilSetScalar s)[i] = 0) ∧
  (∀ (a b : Bank) (i : Fin 8), (utilOr a b)[i] = a[i] ||| b[i])

/-- R154, R155: `compare` orders banks by their values, decided by the first word that differs, and `compareScalar` is 1 whenever a word above the last is
not zero and otherwise compares the last word. Which sign means which order is decision D23 of the spec, not its source's
(log entry 11). -/
def Obligations.CompareOrdersValues : Prop :=
  (∀ a b : Bank, (utilCompare a b = 0 ↔ val a = val b) ∧ (utilCompare a b = -1 ↔ val a < val b) ∧
    (utilCompare a b = 1 ↔ val b < val a)) ∧
  (∀ (a b : Bank) (i : Fin 8), (∀ j : Fin 8, j < i → a[j] = b[j]) → a[i] ≠ b[i] →
    utilCompare a b = if a[i] < b[i] then -1 else 1) ∧
  (∀ (a : Bank) (s : Word), utilCompareScalar a s = utilCompare a (wide s.toNat) ∧
    ((∃ i : Fin 8, i.val < 7 ∧ a[i] ≠ 0) → utilCompareScalar a s = 1) ∧
    ((∀ i : Fin 8, i.val < 7 → a[i] = 0) →
      utilCompareScalar a s = if a[7] = s then 0 else if a[7] < s then -1 else 1))

/-- R156, R157, R158: the carry chains of `add`, `addScalar` and `sub` give the sum and difference modulo `2^512`
and the carry-out and borrow-out. -/
def Obligations.AddAndSubReportCarry : Prop :=
  (∀ a b : Bank, (utilAdd a b).1 = wide ((val a + val b) % 2 ^ 512) ∧
    (utilAdd a b).2.toNat = (val a + val b) / 2 ^ 512) ∧
  (∀ (a : Bank) (s : Word), utilAddScalar a s = utilAdd a (wide s.toNat) ∧
    ((utilAddScalar a s).2 = 1 ↔ 2 ^ 512 ≤ val a + s.toNat)) ∧
  (∀ a b : Bank,
    (val b ≤ val a → utilSub a b = (wide (val a - val b), 0)) ∧
    (val a < val b → utilSub a b = (wide (val a + 2 ^ 512 - val b), 1)))

/-- R159, R160: the word formulas of the shifts give the shifted value; a count of 512 or more gives zero and a
count of 0 the same bank. -/
def Obligations.ShiftsFollowTheirContract : Prop :=
  ∀ (src : Bank) (bits : BitVec 16),
    (bits.toNat < 512 → utilShiftLeft src bits = wide ((val src <<< bits.toNat) % 2 ^ 512) ∧
      utilShiftRight src bits = wide (val src >>> bits.toNat)) ∧
    (512 ≤ bits.toNat → utilShiftLeft src bits = wide 0 ∧ utilShiftRight src bits = wide 0) ∧
    (bits = 0 → utilShiftLeft src bits = src ∧ utilShiftRight src bits = src)

/-! ### The platform -/

/-- R191: an access reaches the one engine whose window holds the address: it is served there as the event of its
word offset, with that engine's outcome. A next state leaves every other engine as it was, and a refusal is the
platform's; in particular a write to the engine's CMD with a reserved bit set is refused (R84). All engines start in
the reset state. That the platform is a list of engines, each with its base, is the model's choice (log entry 10). -/
def Obligations.PlatformAccessReachesOneEngine : Prop :=
  (∀ (p : Platform) (k : Nat) (hk : k < p.length), p.wellFormed = true →
    (∀ (ev : Offset → Event) (off : Offset),
      (∀ t : State, perform (ev off) p[k].engine = .next t →
        Platform.access ev (p[k].base + 8 * off.toNat) 8 p = .next (p.set k { p[k] with engine := t })) ∧
      (∀ r : Refusal, perform (ev off) p[k].engine = .refused r →
        Platform.access ev (p[k].base + 8 * off.toNat) 8 p = .refused r)) ∧
    (∀ v : Word, (∃ b, 2 ≤ b ∧ v.getLsbD b = true) →
      Platform.memWrite (p[k].base + 8 * 0x22) 8 v p = .refused .reservedCommandBits)) ∧
  (∀ (bases : List Nat) (k : Nat) (hk : k < (Platform.reset bases).length),
    ((Platform.reset bases)[k]).engine = State.reset)

/-- An access of another width than one word, or misaligned, is refused, as U2 tells a model to (R56). That an address
outside every window is refused too is the model's choice (log entry 6). -/
def Obligations.PlatformRefusesPartialAccess : Prop :=
  ∀ (p : Platform) (ev : Offset → Event) (addr bytes : Nat), p.wellFormed = true →
    bytes ≠ 8 ∨ addr % 8 ≠ 0 ∨ (∀ e ∈ p, addr < e.base ∨ e.base + 512 ≤ addr) →
    Platform.access ev addr bytes p = .refused .unsupportedAccess

/-- R60: every bank starts at a word offset that is a multiple of 8, so on the bus every bank is 64-byte
aligned. -/
def Obligations.BanksAreAligned : Prop :=
  ∀ (b : BankName), (b.reg 0).offset.toNat % 8 = 0 ∧
    (∀ i : Fin 8, (b.reg i).offset.toNat = (b.reg 0).offset.toNat + i.val) ∧
    ∀ base : Nat, wellFormedBase base = true → (base + 8 * (b.reg 0).offset.toNat) % 64 = 0
end

