-- ==== Sys2Proof/Laws/Decode.lean ====
section
/-! SUPPORT. The command word's reserved field as a bound on its value, and the four words below it. -/

namespace Sys2Proof

/-- The reserved bits are zero exactly when the word is below 4 (R80). -/
theorem commandRsvd_eq_zero (v : Word) : commandRsvd v = 0 ↔ v.toNat < 4 := by
  have h : (commandRsvd v).toNat = v.toNat / 4 := by
    rw [commandRsvd, BitVec.extractLsb'_toNat, Nat.shiftRight_eq_div_pow]
    exact Nat.mod_eq_of_lt (by have := v.isLt; omega)
  rw [← BitVec.toNat_inj, h, show (0 : BitVec 62).toNat = 0 from rfl]
  omega

/-- The host's duty on a command word is the same bound (R84). -/
theorem wellFormedCommandWord_iff (v : Word) : wellFormedCommandWord v = true ↔ v.toNat < 4 := by
  have h : (v >>> 2).toNat = v.toNat / 4 := by
    rw [BitVec.toNat_ushiftRight, Nat.shiftRight_eq_div_pow]
  rw [wellFormedCommandWord, beq_iff_eq, ← BitVec.toNat_inj, h, show (0 : Word).toNat = 0 from rfl]
  omega

/-- A word below 4 is one of the four command words (R89). -/
theorem word_below_four (v : Word) (h : v.toNat < 4) : v = 0 ∨ v = 1 ∨ v = 2 ∨ v = 3 := by
  simp only [← BitVec.toNat_inj]
  have e : (0 : Word).toNat = 0 ∧ (1 : Word).toNat = 1 ∧ (2 : Word).toNat = 2 ∧ (3 : Word).toNat = 3 := by decide
  rw [e.1, e.2.1, e.2.2.1, e.2.2.2]
  omega

/-- A word of 4 or more is rejected by name (R84). -/
theorem decode_reserved (v : Word) (h : 4 ≤ v.toNat) : decode v = .error .reservedBits := by
  rw [decode, if_pos]
  rw [ne_eq, commandRsvd_eq_zero]
  omega

/-- A word that decodes to a command is below 4. -/
theorem lt_four_of_decode (v : Word) (i : Instr) (h : decode v = .ok i) : v.toNat < 4 := by
  by_contra hv
  rw [decode_reserved v (by omega)] at h
  cases h

end Sys2Proof
end

