-- ==== Sys2Proof/Laws/Operands.lean ====
section
/-! SUPPORT. Banks as numbers: `val` and `wide` are inverse to each other (spec/00_scope.md R9), and their bounds. -/

namespace Sys2Proof.Machine

/-- The sum of R9, word `i` weighing `2^(64*(7-i))`. -/
theorem val_eq_sum (X : Bank) :
    val X = X[0].toNat * 2 ^ (64 * 7) + X[1].toNat * 2 ^ (64 * 6) + X[2].toNat * 2 ^ (64 * 5)
      + X[3].toNat * 2 ^ (64 * 4) + X[4].toNat * 2 ^ (64 * 3) + X[5].toNat * 2 ^ (64 * 2)
      + X[6].toNat * 2 ^ (64 * 1) + X[7].toNat * 2 ^ (64 * 0) := by
  simp only [val, pow_mul]
  ring

@[simp] theorem word_toNat (v : Nat) : (word v).toNat = v % 2 ^ 64 := by simp [word]

@[simp] theorem word_of_toNat (w : Word) : word w.toNat = w := by simp [word]

/-- A word of `bankOf f`. -/
@[simp] theorem bankOf_get (f : Fin 8 → Word) (k : Nat) (hk : k < 8) : (bankOf f)[k] = f ⟨k, hk⟩ := by
  obtain h | h | h | h | h | h | h | h :
    k = 0 ∨ k = 1 ∨ k = 2 ∨ k = 3 ∨ k = 4 ∨ k = 5 ∨ k = 6 ∨ k = 7 := by omega
  all_goals subst h; rfl

@[simp] theorem bankOf_words (X : Bank) : (bankOf fun i => X[i]) = X :=
  Vector.ext fun k hk => by simp

/-- Word `k` of `wide v` (R9). -/
theorem wide_get (v k : Nat) (hk : k < 8) : (wide v)[k] = word (v >>> (64 * (7 - k))) := by
  simp [wide]

/-- The value of a bank of given words, one digit after another. -/
theorem val_bankOf (f : Fin 8 → Word) :
    val (bankOf f) = ((((((((f 0).toNat * 2 ^ 64 + (f 1).toNat) * 2 ^ 64 + (f 2).toNat) * 2 ^ 64
      + (f 3).toNat) * 2 ^ 64 + (f 4).toNat) * 2 ^ 64 + (f 5).toNat) * 2 ^ 64 + (f 6).toNat) * 2 ^ 64
      + (f 7).toNat) := rfl

/-- The value of a bank is below `2^512` (R9). -/
theorem val_lt (X : Bank) : val X < 2 ^ 512 := by
  have h : (2 : Nat) ^ 512 = 2 ^ 64 * 2 ^ 64 * 2 ^ 64 * 2 ^ 64 * 2 ^ 64 * 2 ^ 64 * 2 ^ 64 * 2 ^ 64 := by
    simp only [← pow_add]
  rw [h, val]
  have := X[0].isLt; have := X[1].isLt; have := X[2].isLt; have := X[3].isLt
  have := X[4].isLt; have := X[5].isLt; have := X[6].isLt; have := X[7].isLt
  omega

/-- One more digit: the digits of `v` above position `k`, and digit `k` itself. -/
theorem shiftRight_digit (v k : Nat) :
    (v >>> (64 * (k + 1))) * 2 ^ 64 + (v >>> (64 * k)) % 2 ^ 64 = v >>> (64 * k) := by
  have h : v >>> (64 * (k + 1)) = v >>> (64 * k) / 2 ^ 64 := by
    rw [Nat.mul_add, Nat.shiftRight_add, Nat.shiftRight_eq_div_pow (v >>> (64 * k))]
  rw [h, Nat.mul_comm]
  exact Nat.div_add_mod _ _

set_option exponentiation.threshold 512 in
/-- `val(wide(v)) = v` for `v` below `2^512` (R9). -/
theorem val_wide (v : Nat) (h : v < 2 ^ 512) : val (wide v) = v := by
  have hp : (2 : Nat) ^ 512 = 2 ^ (64 * 7) * 2 ^ 64 := by rw [← pow_add]
  have h7 : (v >>> (64 * 7)) % 2 ^ 64 = v >>> (64 * 7) := by
    apply Nat.mod_eq_of_lt
    rw [Nat.shiftRight_eq_div_pow]
    apply Nat.div_lt_of_lt_mul
    exact h.trans_eq hp
  have e : val (wide v) = (((((((v >>> (64 * 7)) % 2 ^ 64 * 2 ^ 64 + (v >>> (64 * 6)) % 2 ^ 64) * 2 ^ 64
      + (v >>> (64 * 5)) % 2 ^ 64) * 2 ^ 64 + (v >>> (64 * 4)) % 2 ^ 64) * 2 ^ 64
      + (v >>> (64 * 3)) % 2 ^ 64) * 2 ^ 64 + (v >>> (64 * 2)) % 2 ^ 64) * 2 ^ 64
      + (v >>> (64 * 1)) % 2 ^ 64) * 2 ^ 64 + (v >>> (64 * 0)) % 2 ^ 64 := by
    rw [wide, val_bankOf]
    simp only [word_toNat]
    rfl
  rw [e, h7, shiftRight_digit v 6, shiftRight_digit v 5, shiftRight_digit v 4, shiftRight_digit v 3,
    shiftRight_digit v 2, shiftRight_digit v 1, shiftRight_digit v 0]
  rfl

/-- `wide` looks at its argument modulo `2^512` only. -/
theorem wide_mod (v : Nat) : wide (v % 2 ^ 512) = wide v := by
  apply Vector.ext
  intro k hk
  rw [wide_get, wide_get]
  apply BitVec.eq_of_toNat_eq
  rw [word_toNat, word_toNat, Nat.shiftRight_eq_div_pow, Nat.shiftRight_eq_div_pow]
  have hp : (2 : Nat) ^ 512 = 2 ^ (64 * (7 - k)) * 2 ^ (512 - 64 * (7 - k)) := by
    rw [← pow_add]
    congr 1
    omega
  rw [hp, Nat.mod_mul_right_div_self, Nat.mod_mod_of_dvd]
  exact pow_dvd_pow 2 (by omega)

/-- The value of `wide v` for every `v`. -/
@[simp] theorem val_wide_mod (v : Nat) : val (wide v) = v % 2 ^ 512 := by
  rw [← wide_mod, val_wide _ (Nat.mod_lt _ (by positivity))]

/-- Taking the last digit off a number in base `B`. -/
theorem digit_div (B a b : Nat) (hb : b < B) : (a * B + b) / B = a := by
  rw [Nat.mul_comm, Nat.mul_add_div (by omega), Nat.div_eq_of_lt hb, Nat.add_zero]

/-- The last digit of a number in base `B`. -/
theorem digit_mod (B a b : Nat) (hb : b < B) : (a * B + b) % B = b := by
  rw [Nat.mul_comm, Nat.mul_add_mod, Nat.mod_eq_of_lt hb]

/-- `wide(val(X)) = X` (R9). -/
@[simp] theorem wide_val (X : Bank) : wide (val X) = X := by
  have hX : ∀ i (hi : i < 8), X[i].toNat < 2 ^ 64 := fun i hi => X[i].isLt
  apply Vector.ext
  intro k hk
  rw [wide_get]
  apply BitVec.eq_of_toNat_eq
  rw [word_toNat, Nat.shiftRight_eq_div_pow, Nat.pow_mul, val]
  generalize (2 : Nat) ^ 64 = B at *
  obtain h | h | h | h | h | h | h | h :
    k = 0 ∨ k = 1 ∨ k = 2 ∨ k = 3 ∨ k = 4 ∨ k = 5 ∨ k = 6 ∨ k = 7 := by omega
  all_goals
    subst h
    simp only [Nat.sub_zero, Nat.reduceSub, pow_succ, pow_zero, one_mul, Nat.div_one, ← Nat.div_div_eq_div_mul]
    simp only [digit_div B _ _ (hX _ _), digit_mod B _ _ (hX _ _)]
  exact Nat.mod_eq_of_lt (hX 0 _)

/-- Bit `j` of word `k` of a bank is bit `64*(7-k) + j` of its value (R9). -/
theorem word_bit (X : Bank) (k : Nat) (hk : k < 8) (j : Nat) (hj : j < 64) :
    X[k].getLsbD j = (val X).testBit (64 * (7 - k) + j) := by
  conv_lhs => rw [← wide_val X]
  rw [wide_get _ k hk, word, BitVec.getLsbD_ofNat, decide_eq_true hj, Bool.true_and, Nat.testBit_shiftRight]

/-- `bit(X, i)` is bit `i` of the value (R8, R124). -/
theorem bankBit_eq (X : Bank) (i : Nat) (hi : i < 512) : bankBit X i = (val X).testBit i := by
  rw [bankBit, word_bit X _ (by omega) _ (Nat.mod_lt _ (by omega))]
  congr 1
  omega

/-- `val` is injective: a bank is its value. -/
theorem val_inj (X Y : Bank) : val X = val Y ↔ X = Y :=
  ⟨fun h => by rw [← wide_val X, h, wide_val], fun h => by rw [h]⟩

/-- The reset bank is the bank of 0. -/
theorem zeroBank_eq_wide : zeroBank = wide 0 := by decide

end Sys2Proof.Machine
end

