-- ==== Sys2Proof/Laws/State.lean ====
section
/-! SUPPORT. One lemma per field per shared operation on registers, each true by `rfl`, so that no proof unfolds a
record update. -/

namespace Sys2Proof.Machine

section
variable (a b : Nat) (st : Word) (s : State)

@[simp] theorem commitWide_opa : (commitWide a b st s).opa = s.opa := rfl
@[simp] theorem commitWide_opb : (commitWide a b st s).opb = s.opb := rfl
@[simp] theorem commitWide_ops : (commitWide a b st s).ops = s.ops := rfl
@[simp] theorem commitWide_rlo : (commitWide a b st s).rlo = wide a := rfl
@[simp] theorem commitWide_rhi : (commitWide a b st s).rhi = wide b := rfl
@[simp] theorem commitWide_rs : (commitWide a b st s).rs = s.rs := rfl
@[simp] theorem commitWide_status : (commitWide a b st s).status = st := rfl
@[simp] theorem commitWide_pending : (commitWide a b st s).pending = s.pending := rfl
@[simp] theorem commitWide_answers : (commitWide a b st s).answers = s.answers := rfl

end

section
variable (a b : Nat) (st : Word) (s : State)

@[simp] theorem commitScalar_opa : (commitScalar a b st s).opa = s.opa := rfl
@[simp] theorem commitScalar_opb : (commitScalar a b st s).opb = s.opb := rfl
@[simp] theorem commitScalar_ops : (commitScalar a b st s).ops = s.ops := rfl
@[simp] theorem commitScalar_rlo : (commitScalar a b st s).rlo = wide a := rfl
@[simp] theorem commitScalar_rhi : (commitScalar a b st s).rhi = s.rhi := rfl
@[simp] theorem commitScalar_rs : (commitScalar a b st s).rs = word b := rfl
@[simp] theorem commitScalar_status : (commitScalar a b st s).status = st := rfl
@[simp] theorem commitScalar_pending : (commitScalar a b st s).pending = s.pending := rfl
@[simp] theorem commitScalar_answers : (commitScalar a b st s).answers = s.answers := rfl

end

section
variable (s : State)

@[simp] theorem divideByZeroWide_opa : (divideByZeroWide s).opa = s.opa := rfl
@[simp] theorem divideByZeroWide_opb : (divideByZeroWide s).opb = s.opb := rfl
@[simp] theorem divideByZeroWide_ops : (divideByZeroWide s).ops = s.ops := rfl
@[simp] theorem divideByZeroWide_rlo : (divideByZeroWide s).rlo = wide 0 := rfl
@[simp] theorem divideByZeroWide_rhi : (divideByZeroWide s).rhi = wide 0 := rfl
@[simp] theorem divideByZeroWide_rs : (divideByZeroWide s).rs = s.rs := rfl
@[simp] theorem divideByZeroWide_status : (divideByZeroWide s).status = stDbz := rfl
@[simp] theorem divideByZeroWide_pending : (divideByZeroWide s).pending = s.pending := rfl
@[simp] theorem divideByZeroWide_answers : (divideByZeroWide s).answers = s.answers := rfl

end

section
variable (s : State)

@[simp] theorem divideByZeroScalar_opa : (divideByZeroScalar s).opa = s.opa := rfl
@[simp] theorem divideByZeroScalar_opb : (divideByZeroScalar s).opb = s.opb := rfl
@[simp] theorem divideByZeroScalar_ops : (divideByZeroScalar s).ops = s.ops := rfl
@[simp] theorem divideByZeroScalar_rlo : (divideByZeroScalar s).rlo = wide 0 := rfl
@[simp] theorem divideByZeroScalar_rhi : (divideByZeroScalar s).rhi = s.rhi := rfl
@[simp] theorem divideByZeroScalar_rs : (divideByZeroScalar s).rs = word 0 := rfl
@[simp] theorem divideByZeroScalar_status : (divideByZeroScalar s).status = stDbz := rfl
@[simp] theorem divideByZeroScalar_pending : (divideByZeroScalar s).pending = s.pending := rfl
@[simp] theorem divideByZeroScalar_answers : (divideByZeroScalar s).answers = s.answers := rfl

end

section
variable (s : State)

@[simp] theorem resetRegisters_opa : (resetRegisters s).opa = zeroBank := rfl
@[simp] theorem resetRegisters_opb : (resetRegisters s).opb = zeroBank := rfl
@[simp] theorem resetRegisters_ops : (resetRegisters s).ops = 0 := rfl
@[simp] theorem resetRegisters_rlo : (resetRegisters s).rlo = zeroBank := rfl
@[simp] theorem resetRegisters_rhi : (resetRegisters s).rhi = zeroBank := rfl
@[simp] theorem resetRegisters_rs : (resetRegisters s).rs = 0 := rfl
@[simp] theorem resetRegisters_status : (resetRegisters s).status = 0 := rfl
@[simp] theorem resetRegisters_pending : (resetRegisters s).pending = s.pending := rfl
@[simp] theorem resetRegisters_answers : (resetRegisters s).answers = s.answers := rfl

end

section
variable (v : Word) (s : State)

@[simp] theorem answer_opa : (answer v s).opa = s.opa := rfl
@[simp] theorem answer_opb : (answer v s).opb = s.opb := rfl
@[simp] theorem answer_ops : (answer v s).ops = s.ops := rfl
@[simp] theorem answer_rlo : (answer v s).rlo = s.rlo := rfl
@[simp] theorem answer_rhi : (answer v s).rhi = s.rhi := rfl
@[simp] theorem answer_rs : (answer v s).rs = s.rs := rfl
@[simp] theorem answer_status : (answer v s).status = s.status := rfl
@[simp] theorem answer_pending : (answer v s).pending = s.pending := rfl
@[simp] theorem answer_answers : (answer v s).answers = s.answers ++ [v] := rfl

end

section
variable (i : Fin 8) (v : Word) (s : State)

@[simp] theorem storeOpa_opa : (storeOpa i v s).opa = s.opa.set i v := rfl
@[simp] theorem storeOpa_opb : (storeOpa i v s).opb = s.opb := rfl
@[simp] theorem storeOpa_ops : (storeOpa i v s).ops = s.ops := rfl
@[simp] theorem storeOpa_rlo : (storeOpa i v s).rlo = s.rlo := rfl
@[simp] theorem storeOpa_rhi : (storeOpa i v s).rhi = s.rhi := rfl
@[simp] theorem storeOpa_rs : (storeOpa i v s).rs = s.rs := rfl
@[simp] theorem storeOpa_status : (storeOpa i v s).status = s.status := rfl
@[simp] theorem storeOpa_pending : (storeOpa i v s).pending = s.pending := rfl
@[simp] theorem storeOpa_answers : (storeOpa i v s).answers = s.answers := rfl

end

section
variable (i : Fin 8) (v : Word) (s : State)

@[simp] theorem storeOpb_opa : (storeOpb i v s).opa = s.opa := rfl
@[simp] theorem storeOpb_opb : (storeOpb i v s).opb = s.opb.set i v := rfl
@[simp] theorem storeOpb_ops : (storeOpb i v s).ops = s.ops := rfl
@[simp] theorem storeOpb_rlo : (storeOpb i v s).rlo = s.rlo := rfl
@[simp] theorem storeOpb_rhi : (storeOpb i v s).rhi = s.rhi := rfl
@[simp] theorem storeOpb_rs : (storeOpb i v s).rs = s.rs := rfl
@[simp] theorem storeOpb_status : (storeOpb i v s).status = s.status := rfl
@[simp] theorem storeOpb_pending : (storeOpb i v s).pending = s.pending := rfl
@[simp] theorem storeOpb_answers : (storeOpb i v s).answers = s.answers := rfl

end

section
variable (v : Word) (s : State)

@[simp] theorem storeOps_opa : (storeOps v s).opa = s.opa := rfl
@[simp] theorem storeOps_opb : (storeOps v s).opb = s.opb := rfl
@[simp] theorem storeOps_ops : (storeOps v s).ops = v := rfl
@[simp] theorem storeOps_rlo : (storeOps v s).rlo = s.rlo := rfl
@[simp] theorem storeOps_rhi : (storeOps v s).rhi = s.rhi := rfl
@[simp] theorem storeOps_rs : (storeOps v s).rs = s.rs := rfl
@[simp] theorem storeOps_status : (storeOps v s).status = s.status := rfl
@[simp] theorem storeOps_pending : (storeOps v s).pending = s.pending := rfl
@[simp] theorem storeOps_answers : (storeOps v s).answers = s.answers := rfl

end

section
variable (es : List Event) (s : State)

@[simp] theorem withPending_opa : (withPending es s).opa = s.opa := rfl
@[simp] theorem withPending_opb : (withPending es s).opb = s.opb := rfl
@[simp] theorem withPending_ops : (withPending es s).ops = s.ops := rfl
@[simp] theorem withPending_rlo : (withPending es s).rlo = s.rlo := rfl
@[simp] theorem withPending_rhi : (withPending es s).rhi = s.rhi := rfl
@[simp] theorem withPending_rs : (withPending es s).rs = s.rs := rfl
@[simp] theorem withPending_status : (withPending es s).status = s.status := rfl
@[simp] theorem withPending_pending : (withPending es s).pending = es := rfl
@[simp] theorem withPending_answers : (withPending es s).answers = s.answers := rfl

end

/-- A command reads the same operands whatever is pending. -/
@[simp] theorem firstOperand_withPending (es : List Event) (s : State) :
    firstOperand (withPending es s) = firstOperand s := rfl

@[simp] theorem wideOperand_withPending (es : List Event) (s : State) :
    wideOperand (withPending es s) = wideOperand s := rfl

@[simp] theorem scalarOperand_withPending (es : List Event) (s : State) :
    scalarOperand (withPending es s) = scalarOperand s := rfl

end Sys2Proof.Machine
end

