-- ==== Sys2Proof/Laws/Window.lean ====
section
/-! SUPPORT. What commands, transactions and steps can do, each said once: later proofs cite these lemmas and do
not unfold `exec`, `hostWrite`, `perform` or `step`. -/

namespace Sys2Proof.Machine

/-- Every register is at its own offset (R51, R21). -/
@[simp] theorem regAt_offset (r : Reg) : regAt r.offset = some r := by
  cases r with
  | opa i => fin_cases i <;> rfl
  | opb i => fin_cases i <;> rfl
  | rlo i => fin_cases i <;> rfl
  | rhi i => fin_cases i <;> rfl
  | ops => rfl
  | rs => rfl
  | cmd => rfl
  | status => rfl

/-- A register's offset is the only one that names it. -/
theorem offset_of_regAt (off : Offset) (r : Reg) (h : regAt off = some r) : r.offset = off := by
  revert r
  revert off
  decide

/-- A read at a register's offset returns the register (R57). -/
@[simp] theorem hostRead_offset (r : Reg) (s : State) : hostRead r.offset s = readReg s r := by
  simp [hostRead]

/-- CMD is the location at its offset, and at no other. -/
theorem regAt_eq_cmd (off : Offset) : regAt off = some .cmd ↔ off = Reg.cmd.offset :=
  ⟨fun h => (offset_of_regAt off .cmd h).symm, fun h => by rw [h, regAt_offset]⟩

theorem execMulw_eq (s : State) :
    execMulw s = .next (commitWide (firstOperand s * wideOperand s % 2 ^ 512)
      (firstOperand s * wideOperand s / 2 ^ 512) stOk s) := rfl

theorem execMuls_eq (s : State) :
    execMuls s = .next (commitScalar (firstOperand s * scalarOperand s % 2 ^ 512)
      (firstOperand s * scalarOperand s / 2 ^ 512) stOk s) := rfl

theorem execDivw_zero (s : State) (h : wideOperand s = 0) : execDivw s = .next (divideByZeroWide s) := by
  simp [execDivw, h]

theorem execDivw_nonzero (s : State) (h : wideOperand s ≠ 0) :
    execDivw s = .next (commitWide (firstOperand s / wideOperand s) (firstOperand s % wideOperand s) stOk s) := by
  simp [execDivw, h]

theorem execDivs_zero (s : State) (h : scalarOperand s = 0) : execDivs s = .next (divideByZeroScalar s) := by
  simp [execDivs, h]

theorem execDivs_nonzero (s : State) (h : scalarOperand s ≠ 0) :
    execDivs s =
      .next (commitScalar (firstOperand s / scalarOperand s) (firstOperand s % scalarOperand s) stOk s) := by
  simp [execDivs, h]

/-- What a command can do: a wide commit or a scalar commit, of a success or of a divide by zero. -/
theorem exec_cases (i : Instr) (s : State) :
    (∃ a b, exec i s = .next (commitWide a b stOk s)) ∨ (∃ a b, exec i s = .next (commitScalar a b stOk s)) ∨
      exec i s = .next (divideByZeroWide s) ∨ exec i s = .next (divideByZeroScalar s) := by
  cases i with
  | mulw => exact .inl ⟨_, _, execMulw_eq s⟩
  | muls => exact .inr (.inl ⟨_, _, execMuls_eq s⟩)
  | divw =>
    by_cases h : wideOperand s = 0
    · exact .inr (.inr (.inl (execDivw_zero s h)))
    · exact .inl ⟨_, _, execDivw_nonzero s h⟩
  | divs =>
    by_cases h : scalarOperand s = 0
    · exact .inr (.inr (.inr (execDivs_zero s h)))
    · exact .inr (.inl ⟨_, _, execDivs_nonzero s h⟩)

/-- What a write to CMD can do: run the command decoded, or be refused for a reserved bit. -/
theorem execute_cases (v : Word) (s : State) :
    (∃ i, decode v = .ok i ∧ execute v s = exec i s) ∨
      (decode v = .error .reservedBits ∧ execute v s = .refused .reservedCommandBits) := by
  unfold execute
  cases h : decode v with
  | ok i => exact .inl ⟨i, rfl, rfl⟩
  | error e => cases e; exact .inr ⟨rfl, rfl⟩

/-- An offset at which a write is ignored: no operand register's and not CMD's (R36, R58). -/
def IgnoresWrites (off : Offset) : Prop :=
  (∀ i, off ≠ (Reg.opa i).offset) ∧ (∀ i, off ≠ (Reg.opb i).offset) ∧ off ≠ Reg.ops.offset ∧
    off ≠ Reg.cmd.offset

/-- What a host write can do: store in an operand register, execute, or nothing. -/
theorem hostWrite_cases (off : Offset) (v : Word) (s : State) :
    (∃ i, off = (Reg.opa i).offset ∧ hostWrite off v s = .next (storeOpa i v s)) ∨
    (∃ i, off = (Reg.opb i).offset ∧ hostWrite off v s = .next (storeOpb i v s)) ∨
    (off = Reg.ops.offset ∧ hostWrite off v s = .next (storeOps v s)) ∨
    (off = Reg.cmd.offset ∧ hostWrite off v s = execute v s) ∨
    (IgnoresWrites off ∧ hostWrite off v s = .next s) := by
  have ign : (∀ r, regAt off = some r → (∀ i, r ≠ .opa i) ∧ (∀ i, r ≠ .opb i) ∧ r ≠ .ops ∧ r ≠ .cmd) →
      IgnoresWrites off := by
    intro h
    have no : ∀ r, off = r.offset → regAt off = some r := fun r e => by rw [e, regAt_offset]
    exact ⟨fun i e => (h _ (no _ e)).1 i rfl, fun i e => (h _ (no _ e)).2.1 i rfl,
      fun e => (h _ (no _ e)).2.2.1 rfl, fun e => (h _ (no _ e)).2.2.2 rfl⟩
  cases h : regAt off with
  | none => exact .inr (.inr (.inr (.inr ⟨ign (by simp [h]), by simp [hostWrite, h]⟩)))
  | some r =>
    have ho := (offset_of_regAt off r h).symm
    cases r with
    | opa i => exact .inl ⟨i, ho, by simp [hostWrite, h]⟩
    | opb i => exact .inr (.inl ⟨i, ho, by simp [hostWrite, h]⟩)
    | ops => exact .inr (.inr (.inl ⟨ho, by simp [hostWrite, h]⟩))
    | cmd => exact .inr (.inr (.inr (.inl ⟨ho, by simp [hostWrite, h]⟩)))
    | rlo i => exact .inr (.inr (.inr (.inr ⟨ign (by simp [h]), by simp [hostWrite, h]⟩)))
    | rhi i => exact .inr (.inr (.inr (.inr ⟨ign (by simp [h]), by simp [hostWrite, h]⟩)))
    | rs => exact .inr (.inr (.inr (.inr ⟨ign (by simp [h]), by simp [hostWrite, h]⟩)))
    | status => exact .inr (.inr (.inr (.inr ⟨ign (by simp [h]), by simp [hostWrite, h]⟩)))

/-- What an event can do when it leaves a next state: answer a read, reset, store in an operand register, run a
decoded command, or nothing. -/
theorem perform_cases (e : Event) (s t : State) (h : perform e s = .next t) :
    (∃ off, e = .read off ∧ t = answer (hostRead off s) s) ∨
    (e = .reset ∧ t = resetRegisters s) ∨
    (∃ i v, e = .write (Reg.opa i).offset v ∧ t = storeOpa i v s) ∨
    (∃ i v, e = .write (Reg.opb i).offset v ∧ t = storeOpb i v s) ∨
    (∃ v, e = .write Reg.ops.offset v ∧ t = storeOps v s) ∨
    (∃ v i, e = .write Reg.cmd.offset v ∧ decode v = .ok i ∧ exec i s = .next t) ∨
    (∃ off v, e = .write off v ∧ IgnoresWrites off ∧ t = s) := by
  cases e with
  | read off => exact .inl ⟨off, rfl, (Host.Outcome.next.inj h).symm⟩
  | reset => exact .inr (.inl ⟨rfl, (Host.Outcome.next.inj h).symm⟩)
  | write off v =>
    simp only [perform] at h
    obtain ⟨i, rfl, hw⟩ | ⟨i, rfl, hw⟩ | ⟨rfl, hw⟩ | ⟨rfl, hw⟩ | ⟨hi, hw⟩ := hostWrite_cases off v s
    · exact .inr (.inr (.inl ⟨i, v, rfl, by simpa [hw] using h.symm⟩))
    · exact .inr (.inr (.inr (.inl ⟨i, v, rfl, by simpa [hw] using h.symm⟩)))
    · exact .inr (.inr (.inr (.inr (.inl ⟨v, rfl, by simpa [hw] using h.symm⟩))))
    · obtain ⟨i, hd, he⟩ | ⟨-, he⟩ := execute_cases v s
      · exact .inr (.inr (.inr (.inr (.inr (.inl ⟨v, i, rfl, hd, by rw [← he, ← hw, h]⟩)))))
      · rw [hw, he] at h
        cases h
    · exact .inr (.inr (.inr (.inr (.inr (.inr ⟨off, v, rfl, hi, by simpa [hw] using h.symm⟩)))))

/-- An idle step changes nothing (R201). -/
theorem step_idle (s : State) (h : s.pending = []) : step s = .next s := by
  simp [step, serve, h]

/-- A step with an event to serve performs it. -/
theorem step_event (s : State) (e : Event) (es : List Event) (h : s.pending = e :: es) :
    step s = perform e (withPending es s) := by
  simp [step, serve, h]

end Sys2Proof.Machine
end

