-- ==== Sys2Proof/Laws/PerInstr.lean ====
section
/-! SUPPORT. Families of statements about every command as syntax, one lemma per constructor. -/

namespace Sys2Proof.Laws.OpcodeRow

/-- The command has a row in the opcode map, its command word is that row's pattern, and the word keeps the
reserved bits zero (spec/30_encoding.md R84, R89). -/
def Statement (i : Instr) : Prop :=
  ∃ row ∈ opcodeTable, row.instr = i ∧ encode i = row.pattern ∧ wellFormedCommandWord (encode i) = true

theorem mulw : Statement .mulw := ⟨⟨.mulw, 0#64, 0xFFFFFFFFFFFFFFFF#64⟩, by decide⟩

theorem muls : Statement .muls := ⟨⟨.muls, 1#64, 0xFFFFFFFFFFFFFFFF#64⟩, by decide⟩

theorem divw : Statement .divw := ⟨⟨.divw, 2#64, 0xFFFFFFFFFFFFFFFF#64⟩, by decide⟩

theorem divs : Statement .divs := ⟨⟨.divs, 3#64, 0xFFFFFFFFFFFFFFFF#64⟩, by decide⟩

end Sys2Proof.Laws.OpcodeRow
end

