-- ==== Sys2Proof/Laws/Run.lean ====
section
/-! SUPPORT. How runs unfold, one event or one step at a time, and what an event can never do. -/

namespace Sys2Proof.Machine

theorem performAll_nil (s : State) : performAll [] s = .next s := rfl

/-- A run whose first event completes goes on with the rest (R62). -/
theorem performAll_cons (e : Event) (es : List Event) (s t : State) (h : perform e s = .next t) :
    performAll (e :: es) s = performAll es t := by
  simp only [performAll, h]

/-- A run stops at an event that is refused. -/
theorem performAll_refused (e : Event) (es : List Event) (s : State) (r : Refusal)
    (h : perform e s = .refused r) : performAll (e :: es) s = .refused r := by
  simp only [performAll, h]

/-- Two runs in a row. -/
theorem performAll_append (es fs : List Event) (s t : State) (h : performAll es s = .next t) :
    performAll (es ++ fs) s = performAll fs t := by
  induction es generalizing s with
  | nil => cases h; rfl
  | cons e es ih =>
    cases he : perform e s with
    | next u =>
      rw [performAll_cons e es s u he] at h
      rw [List.cons_append, performAll_cons e _ s u he, ih u h]
    | fault f => cases f
    | refused r =>
      rw [performAll_refused e es s r he] at h
      cases h

theorem runSteps_zero (s : State) : runSteps 0 s = .next s := rfl

/-- A run of any machine whose first step completes goes on with the rest. -/
theorem coreRun_succ (M : Host.Core) (k : Nat) (s t : M.State) (h : M.step s = .next t) :
    M.run (k + 1) s = M.run k t := by
  simp only [Host.Core.run, h]

/-- A run of any machine stops at a refused step. -/
theorem coreRun_refused (M : Host.Core) (k : Nat) (s : M.State) (r : M.Refusal) (h : M.step s = .refused r) :
    M.run (k + 1) s = .refused r := by
  simp only [Host.Core.run, h]

theorem runSteps_succ (k : Nat) (s t : State) (h : step s = .next t) : runSteps (k + 1) s = runSteps k t :=
  coreRun_succ Sys2Proof.core k s t h

theorem runSteps_refused (k : Nat) (s : State) (r : Refusal) (h : step s = .refused r) :
    runSteps (k + 1) s = .refused r :=
  coreRun_refused Sys2Proof.core k s r h

/-- Registers equal to themselves. -/
theorem sameRegisters_refl (s : State) : s.sameRegisters s := ⟨rfl, rfl, rfl, rfl, rfl, rfl, rfl⟩

/-- Seven equal registers and equal outside fields make equal states. -/
theorem state_ext (s t : State) (h : s.sameRegisters t) (hp : s.pending = t.pending)
    (ha : s.answers = t.answers) : s = t := by
  obtain ⟨h1, h2, h3, h4, h5, h6, h7⟩ := h
  cases s
  cases t
  simp_all

end Sys2Proof.Machine
end

