-- ==== Sys2Proof/Laws/Utilities.lean ====
section
/-! SUPPORT. One link of each carry chain, as arithmetic on numbers. -/

namespace Sys2Proof.Machine

/-- A link of `add`: the digit and the carry out make up the sum of the digits and the carry in. -/
theorem addWord_link (x y c : Nat) : (x + y + c) % 2 ^ 64 + (x + y + c) / 2 ^ 64 * 2 ^ 64 = x + y + c := by
  omega

/-- The carry out of a link of `add` is 0 or 1. -/
theorem addWord_carry_le (x y c : Nat) (hx : x < 2 ^ 64) (hy : y < 2 ^ 64) (hc : c ≤ 1) :
    (x + y + c) / 2 ^ 64 ≤ 1 := by
  omega

/-- A link of `sub`: the digit plus what is taken away is the minuend's digit plus the borrow out. -/
theorem subWord_link (x y c : Nat) (hx : x < 2 ^ 64) (hy : y < 2 ^ 64) (hc : c ≤ 1) :
    (2 ^ 64 + x - (y + c)) % 2 ^ 64 + y + c = x + (if x < y + c then 1 else 0) * 2 ^ 64 := by
  split <;> omega

/-- The borrow out of a link of `sub` is 0 or 1. -/
theorem subWord_borrow_le (x d : Nat) : (if x < d then 1 else 0) ≤ 1 := by
  split <;> omega

/-- A digit product with the digit in place and the carry stays below `2^128` (R103). -/
theorem mulDigit_bound (x y d c : Nat) (hx : x < 2 ^ 64) (hy : y < 2 ^ 64) (hd : d < 2 ^ 64) (hc : c < 2 ^ 64) :
    x * y + d + c < 2 ^ 128 := by
  have h : x * y ≤ (2 ^ 64 - 1) * (2 ^ 64 - 1) := Nat.mul_le_mul (by omega) (by omega)
  omega

/-- The two halves of a 128-bit sum (R103). -/
theorem bitField_split (x : Nat) (h : x < 2 ^ 128) : bitField x 63 0 + bitField x 127 64 * 2 ^ 64 = x := by
  simp only [bitField, Nat.shiftRight_eq_div_pow, Nat.reduceSub, Nat.reduceAdd]
  omega

end Sys2Proof.Machine
end

