-- ==== Sys2Proof/Tests/Slice0.lean ====
section
/-! SUPPORT. The model's own tests: the encoding written out bit by bit, the checks refusing ill-formed terms, at
most two vectors of spec/95_test_vectors.md for each command, and for each obligation with hypotheses a witness
that meets them. Every expected result is the spec's. -/

namespace Sys2Proof.Tests

open Sys2Proof Sys2Proof.Machine

/- One theorem at a time: many kernel evaluations waiting at once each hold a thread's stack. -/
set_option Elab.async false

/-! ### Helpers -/

/-- The state of an outcome that has one. -/
def after : Host.Outcome State Fault Refusal → State
  | .next t => t
  | .fault _ => State.reset
  | .refused _ => State.reset

/-- Whether an outcome is a next state. -/
def completes : Host.Outcome State Fault Refusal → Bool
  | .next _ => true
  | .fault _ => false
  | .refused _ => false

theorem next_after (o : Host.Outcome State Fault Refusal) (h : completes o = true) : o = .next (after o) := by
  cases o with
  | next t => rfl
  | fault f => cases f
  | refused r => cases h

/-- An engine straight after reset, then loaded with the given operands. -/
def loaded (a b : Bank) (s : Word) : State := { State.reset with opa := a, opb := b, ops := s }

/-- An engine straight after reset, then loaded with the given numbers. -/
def numbers (a b s : Nat) : State := loaded (wide a) (wide b) (word s)

/-- The spec's named constants (spec/95_test_vectors.md). -/
def pat : Bank :=
  #v[0x0123456789ABCDEF, 0xFEDCBA9876543210, 0x0F1E2D3C4B5A6978, 0x8796A5B4C3D2E1F0,
     0x1111111111111111, 0x2222222222222222, 0x3333333333333333, 0x4444444444444444]

def pat2 : Bank :=
  #v[0, 0, 0, 0, 0x00000000000000AB, 0xCDEF0123456789AB, 0xDEADBEEFCAFEF00D, 0x0000000100000001]

def max : Bank := Vector.replicate 8 0xFFFFFFFFFFFFFFFF

/-! ### Decoding and encoding (R80, R89) -/

theorem test_decode_mulw :
    decode 0b0000000000000000000000000000000000000000000000000000000000000000#64 = .ok .mulw := by rfl

theorem test_decode_muls :
    decode 0b0000000000000000000000000000000000000000000000000000000000000001#64 = .ok .muls := by rfl

theorem test_decode_divw :
    decode 0b0000000000000000000000000000000000000000000000000000000000000010#64 = .ok .divw := by rfl

theorem test_decode_divs :
    decode 0b0000000000000000000000000000000000000000000000000000000000000011#64 = .ok .divs := by rfl

/-- The lowest and the highest reserved bit (R84). -/
theorem test_decode_reserved :
    decode 0x0000000000000004#64 = .error .reservedBits ∧ decode 0x8000000000000000#64 = .error .reservedBits := by
  constructor <;> rfl

theorem test_encode :
    encode .mulw = 0#64 ∧ encode .muls = 1#64 ∧ encode .divw = 2#64 ∧ encode .divs = 3#64 := by decide

/-- The rows of the opcode map are in order, complete, and no two overlap (R89). -/
theorem test_opcode_table :
    opcodeTable.map OpcodeRow.instr = [.mulw, .muls, .divw, .divs] ∧
      opcodeTable.Pairwise (fun r q => r.pattern &&& r.mask &&& q.mask ≠ q.pattern &&& r.mask &&& q.mask) := by
  decide

theorem test_decode_table_word :
    decodeTableWord 64 2 = some .divw ∧ decodeTableWord 64 4 = none ∧ decodeTableWord 1 2 = none := by decide

/-! ### The checks refuse ill-formed terms -/

theorem smoke_command_word :
    wellFormedCommandWord 4#64 = false ∧ wellFormedCommandWord 0x8000000000000003#64 = false ∧
      wellFormedCommandWord 3#64 = true := by decide

/-- No command has operand fields, so this check refuses none (R82). -/
theorem smoke_command : ∀ i : Instr, i.wellFormed = true := by intro i; cases i <;> rfl

theorem smoke_script_values :
    (Stmt.wr .ops (2 ^ 64)).wellFormed = false ∧ (Stmt.lds (2 ^ 64)).wellFormed = false ∧
      (Stmt.ldw .opa (2 ^ 512)).wellFormed = false := by decide +kernel

theorem smoke_script_banks :
    (Stmt.ldw .rlo 0).wellFormed = false ∧ (Stmt.ldwWords .rhi pat).wellFormed = false ∧
      (Stmt.movw .rlo .opa).wellFormed = false ∧ (Stmt.movw .rhi .opa).wellFormed = false ∧
      (Stmt.movw .opa .rlo).wellFormed = true := by decide +kernel

theorem smoke_base : wellFormedBase 8 = false ∧ wellFormedBase 512 = true := by decide

theorem smoke_platform :
    Platform.wellFormed [] = false ∧ Platform.wellFormed (Platform.reset [512, 512]) = false ∧
      Platform.wellFormed (Platform.reset [512, 8]) = false ∧
      Platform.wellFormed (Platform.reset [512, 0]) = true := by decide

theorem smoke_access :
    wholeWordAccess 512 512 4 = false ∧ wholeWordAccess 512 516 8 = false ∧
      wholeWordAccess 512 520 8 = true := by decide

/-! ### Commands: vectors of spec/95_test_vectors.md -/

/-- Vector M16, and the unowned RS left alone. -/
theorem test_mulw_m16 :
    let t := after (execMulw { loaded pat pat2 7 with rs := 9, status := stDbz })
    t.rlo = #v[0x7BC0556335FF54EB, 0xF9DAEC20A97574B2, 0x92780195D27C3B30, 0xCE62E9C83C623F6E,
               0x3EB51DDF344B1900, 0xB5CBD939D8E451B0, 0xF7D1AAF35266AEEB, 0x8888888844444444] ∧
    t.rhi = #v[0, 0, 0, 0, 0, 0xC379AAABF61186D1, 0xA656407A6B2918E2, 0xC026B6EF6F3FF94D] ∧
    t.status = 0 ∧ t.rs = 9 := by decide +kernel

/-- Vector M7, the largest product. -/
theorem test_mulw_m7 :
    let t := after (execMulw (loaded max max 0))
    t.rlo = #v[0, 0, 0, 0, 0, 0, 0, 1] ∧ t.rhi = max.set 7 0xFFFFFFFFFFFFFFFE := by decide +kernel

/-- Vector S10, and the unowned RHI left alone. -/
theorem test_muls_s10 :
    let t := after (execMuls { loaded pat pat2 0xDEADBEEFCAFEF00D with rhi := pat })
    t.rlo = #v[0x03A7C779D437D4D5, 0x08814A8CA6E8B766, 0xC3F11E4B78A5D2FF, 0x5D7804672E1DDE86,
               0x420B95432FAA9889, 0x753EC87662DDCBBC, 0xA871FBA99610FEEF, 0x916B448CDAEF3774] ∧
    t.rs = 0x00FD5BDEEEB2A05B ∧ t.status = 0 ∧ t.rhi = pat := by decide +kernel

/-- Vector S6, the largest possible RS. -/
theorem test_muls_s6 :
    let t := after (execMuls (loaded max zeroBank 0xFFFFFFFFFFFFFFFF))
    t.rlo = #v[0xFFFFFFFFFFFFFFFF, 0xFFFFFFFFFFFFFFFF, 0xFFFFFFFFFFFFFFFF, 0xFFFFFFFFFFFFFFFF,
               0xFFFFFFFFFFFFFFFF, 0xFFFFFFFFFFFFFFFF, 0xFFFFFFFFFFFFFFFF, 1] ∧
    t.rs = 0xFFFFFFFFFFFFFFFE := by decide +kernel

/-- Vector V18, a large remainder, and the unowned RS left alone. -/
theorem test_divw_v18 :
    let t := after (execDivw { loaded pat pat2 0 with rs := 9, status := stDbz })
    t.rlo = #v[0, 0, 0, 0x0001B20366B89A99, 0x17BC135F75A05843, 0x465FE4E0610C83BE,
               0x4BD812E5A1241819, 0x4246C80A0AADED9F] ∧
    t.rhi = #v[0, 0, 0, 0, 0x0000000000000094, 0x0D826EB19F8BF6E5, 0xA181C62C7C6C31FC,
               0xF74F8E9B399656A5] ∧
    t.status = 0 ∧ t.rs = 9 := by decide +kernel

/-- Vector V2, a divide by zero over old results. -/
theorem test_divw_v2 :
    let t := after (execDivw { loaded #v[0, 0, 0, 0, 0, 0, 0, 5] zeroBank 1 with rlo := pat, rhi := pat, rs := 9 })
    t.rlo = zeroBank ∧ t.rhi = zeroBank ∧ t.rs = 9 ∧ t.status = 0xFFFFFFFFFFFFFFFF := by decide +kernel

/-- Vector T9, whose running remainder reaches 65 bits. -/
theorem test_divs_t9 :
    let t := after (execDivs { loaded (max.set 0 0xFFFFFFFFFFFFFFFE) zeroBank 0xFFFFFFFFFFFFFFFF with rhi := pat })
    t.rlo = #v[0, 0xFFFFFFFFFFFFFFFF, 0xFFFFFFFFFFFFFFFF, 0xFFFFFFFFFFFFFFFF, 0xFFFFFFFFFFFFFFFF,
               0xFFFFFFFFFFFFFFFF, 0xFFFFFFFFFFFFFFFF, 0xFFFFFFFFFFFFFFFF] ∧
    t.rs = 0xFFFFFFFFFFFFFFFE ∧ t.status = 0 ∧ t.rhi = pat := by decide +kernel

/-- Vector T2, a divide by zero over old results. -/
theorem test_divs_t2 :
    let t := after (execDivs { loaded #v[0, 0, 0, 0, 0, 0, 0, 5] pat 0 with rlo := pat, rhi := pat, rs := 9 })
    t.rlo = zeroBank ∧ t.rs = 0 ∧ t.rhi = pat ∧ t.status = 0xFFFFFFFFFFFFFFFF := by decide +kernel

/-! ### The window, the utilities and the reference algorithms: vectors of spec/95 and spec/96 -/

/-- Host vectors 2, 4, 10 and 18 of spec/95_test_vectors.md section 2.5. -/
theorem test_host_writes :
    (after (hostWrite 0x07#6 5 State.reset)).opa = #v[0, 0, 0, 0, 0, 0, 0, 5] ∧
    after (hostWrite 0x17#6 0xAA State.reset) = State.reset ∧
    after (hostWrite 0x24#6 0x1111111111111111 State.reset) = State.reset ∧
    completes (hostWrite 0x22#6 4 State.reset) = false := by decide +kernel

/-- Word order: index 0 is the most significant word and the lowest offset (R26, R54). -/
theorem test_word_order :
    wide (2 ^ 448) = #v[1, 0, 0, 0, 0, 0, 0, 0] ∧ hostRead 0x08#6 (numbers 0 (2 ^ 448) 0) = 1 := by decide +kernel

theorem test_shift_left_65 :
    utilShiftLeft pat 65 =
      #v[0xFDB97530ECA86420, 0x1E3C5A7896B4D2F1, 0x0F2D4B6987A5C3E0, 0x2222222222222222,
         0x4444444444444444, 0x6666666666666666, 0x8888888888888888, 0] := by decide +kernel

theorem test_shift_right_63 :
    utilShiftRight pat 63 =
      #v[0, 0x02468ACF13579BDF, 0xFDB97530ECA86420, 0x1E3C5A7896B4D2F1, 0x0F2D4B6987A5C3E0,
         0x2222222222222222, 0x4444444444444444, 0x6666666666666666] := by decide +kernel

theorem test_add_pat_max : utilAdd pat max = (pat.set 7 0x4444444444444443, 1) := by decide +kernel

theorem test_add_scalar_pat :
    utilAddScalar pat 0xFFFFFFFFFFFFFFFF =
      ((pat.set 6 0x3333333333333334).set 7 0x4444444444444443, 0) := by decide +kernel

theorem test_sub_borrow : utilSub zeroBank #v[0, 0, 0, 0, 0, 0, 0, 1] = (max, 1) := by decide +kernel

theorem test_compare_signs :
    utilCompare pat2 pat = -1 ∧ utilCompare pat pat = 0 ∧ utilCompare pat pat2 = 1 := by decide +kernel

theorem test_schoolbook_m7 :
    mulSchoolbook max max = (#v[0, 0, 0, 0, 0, 0, 0, 1], max.set 7 0xFFFFFFFFFFFFFFFE) := by decide +kernel

theorem test_mul_scalar_s6 :
    mulScalar max 0xFFFFFFFFFFFFFFFF = (max.set 7 1, 0xFFFFFFFFFFFFFFFE) := by decide +kernel

/-! ### Witnesses: a state and operands that meet the hypotheses of an obligation, one for each clause -/

theorem witness_ReservedBitsAreRefused :
    (4#64).getLsbD 2 = true ∧ (0x8000000000000000#64).getLsbD 63 = true ∧
      ∀ k, 2 ≤ k → (3#64).getLsbD k = false := by
  refine ⟨by decide, by decide, fun k hk => ?_⟩
  rw [← BitVec.testBit_toNat]
  exact Nat.testBit_lt_two_pow (Nat.lt_of_lt_of_le (by decide : (3#64).toNat < 2 ^ 2) (Nat.pow_le_pow_right (by decide) hk))

theorem witness_StepRunsTheDecodedCommand :
    let s := { numbers 6 7 0 with pending := [.write 0x22#6 0#64, .reset] }
    s.pending = .write 0x22#6 0#64 :: [.reset] ∧ decode 0#64 = .ok .mulw := ⟨rfl, rfl⟩

theorem witness_PlacedCommandRunsNext : decodeTableWord 64 3 = some .divs := by decide

theorem witness_MulwRule :
    val (numbers 0 5 0).opa = 0 ∧ val (numbers 5 0 0).opb = 0 ∧ val (numbers 5 1 0).opb = 1 ∧
    val (numbers 1 5 0).opa = 1 ∧ val (numbers 5 (2 ^ 0) 0).opb = 2 ^ 0 ∧
    val (numbers 5 (2 ^ 511) 0).opb = 2 ^ 511 ∧
    (let s := numbers (2 ^ 512 - 1) (2 ^ 512 - 1) 0;
      val s.opa = 2 ^ 512 - 1 ∧ val s.opb = 2 ^ 512 - 1) ∧
    (let s := numbers (2 ^ 512 - 1) 2 0;
      val s.opa = 2 ^ 512 - 1 ∧ val s.opb = 2) := by decide +kernel

theorem witness_MulsRule :
    val (numbers 0 0 5).opa = 0 ∧ (numbers 5 0 0).ops = 0 ∧ (numbers 5 0 1).ops = 1 ∧
    (numbers 5 0 (2 ^ 0)).ops.toNat = 2 ^ 0 ∧ (numbers 5 0 (2 ^ 63)).ops.toNat = 2 ^ 63 ∧
    (let s := numbers (2 ^ 512 - 1) 0 (2 ^ 64 - 1);
      val s.opa = 2 ^ 512 - 1 ∧ s.ops.toNat = 2 ^ 64 - 1) ∧
    (let s := numbers (2 ^ 512 - 1) 0 2;
      val s.opa = 2 ^ 512 - 1 ∧ s.ops = 2) := by decide +kernel

theorem witness_ExactProductLaw :
    let s := numbers (2 ^ 512 - 1) (2 ^ 512 - 1) 0
    val (wide (2 ^ 512 - 2)) * 2 ^ 512 + val (wide 1) = val s.opa * val s.opb := by decide +kernel

theorem witness_ScalarOverflowFitsOneWord :
    let s := numbers (2 ^ 512 - 1) 0 (2 ^ 64 - 1)
    val s.opa = 2 ^ 512 - 1 ∧ s.ops.toNat = 2 ^ 64 - 1 := by decide +kernel

theorem witness_MultiplyLaws :
    (numbers 5 1 0).opb = wide 1 ∧ (numbers 5 0 0).opb = wide 0 ∧ (numbers 0 5 0).opa = wide 0 ∧
    (numbers 5 (2 ^ 0) 0).opb = wide (2 ^ 0) ∧ (numbers 5 (2 ^ 511) 0).opb = wide (2 ^ 511) ∧
    (numbers 5 2 0).opb = utilSetScalar 2 := by decide +kernel

theorem witness_SchoolbookComputesTheProduct :
    (7 < 8 ∧ 7 + 8 ≤ 15 ∧ 15 < 16) ∧ (0 < 8 ∧ 0 + 8 ≤ 8 ∧ 8 < 16) := by decide

theorem witness_DivwRule :
    val (numbers 5 0 0).opb = 0 ∧ val (numbers 5 7 0).opb ≠ 0 ∧
    (let s := numbers 0 1 0; val s.opa = 0 ∧ val s.opb ≠ 0) ∧
    val (numbers 5 1 0).opb = 1 ∧
    (let s := numbers (2 ^ 512 - 2) (2 ^ 512 - 1) 0; val s.opa < val s.opb) ∧
    (let s := numbers (2 ^ 512 - 1) (2 ^ 512 - 1) 0; val s.opa = val s.opb ∧ val s.opb ≠ 0) ∧
    val (numbers 5 (2 ^ 0) 0).opb = 2 ^ 0 ∧ val (numbers 5 (2 ^ 511) 0).opb = 2 ^ 511 ∧
    (let s := numbers (2 ^ 512 - 1) 1 0; val s.opa = 2 ^ 512 - 1 ∧ val s.opb = 1) ∧
    2 ^ 511 < val (numbers 5 (2 ^ 511 + 1) 0).opb ∧
    (let s := numbers 12345678910111213 10 0;
      val s.opa = 12345678910111213 ∧ val s.opb = 10) := by decide +kernel

theorem witness_DivsRule :
    (numbers 5 0 0).ops = 0 ∧ (numbers 5 0 7).ops ≠ 0 ∧
    (let s := numbers 0 0 1; val s.opa = 0 ∧ s.ops ≠ 0) ∧
    (numbers 5 0 1).ops = 1 ∧
    (let s := numbers (2 ^ 64 - 2) 0 (2 ^ 64 - 1); val s.opa < s.ops.toNat) ∧
    (numbers 5 0 (2 ^ 0)).ops.toNat = 2 ^ 0 ∧ (numbers 5 0 (2 ^ 63)).ops.toNat = 2 ^ 63 ∧
    (let s := numbers (2 ^ 512 - 1) 0 (2 ^ 64 - 1);
      val s.opa = 2 ^ 512 - 1 ∧ s.ops.toNat = 2 ^ 64 - 1) ∧
    (let s := numbers 12345678910111213 0 10;
      val s.opa = 12345678910111213 ∧ s.ops = 10) := by decide +kernel

theorem witness_DivisionIdentityLaw :
    let s := numbers 17 5 5
    val s.opb ≠ 0 ∧ s.ops ≠ 0 ∧ val s.opa = 3 * val s.opb + 2 ∧ 2 < val s.opb ∧
      val s.opa = 3 * s.ops.toNat + 2 ∧ 2 < s.ops.toNat := by decide +kernel

theorem witness_DivideByZeroOutcome :
    let s := numbers (2 ^ 512 - 1) 0 0
    val s.opb = 0 ∧ s.ops = 0 := by decide +kernel

theorem witness_ScalarRemainderFitsOneWord :
    let s := numbers (2 ^ 64 - 2) 0 (2 ^ 64 - 1)
    s.ops ≠ 0 ∧ s.ops.toNat = 2 ^ 64 - 1 ∧ val s.opa = 2 ^ 64 - 2 := by decide +kernel

theorem witness_DivideEdgeCaseTable :
    (let s := numbers 0 1 1; val s.opa = 0 ∧ val s.opb ≠ 0 ∧ s.ops ≠ 0) ∧
    (let s := numbers 0 0 0; val s.opb = 0 ∧ s.ops = 0) ∧
    (let s := numbers (2 ^ 512 - 1) 1 1; val s.opa ≠ 0 ∧ val s.opb = 1 ∧ s.ops = 1) ∧
    (let s := numbers 1 2 2; val s.opa = 1 ∧ 1 < val s.opb ∧ 1 < s.ops.toNat) ∧
    (let s := numbers 1 1 1; val s.opa = 1 ∧ val s.opb = 1 ∧ s.ops = 1) ∧
    (let s := numbers 5 (2 ^ 511) (2 ^ 63); val s.opb = 2 ^ 511 ∧ s.ops.toNat = 2 ^ 63) ∧
    (let s := numbers 5 (2 ^ 0) (2 ^ 0); val s.opb = 2 ^ 0 ∧ s.ops.toNat = 2 ^ 0) := by decide +kernel

theorem witness_DivideUndoesMultiply :
    (let s := numbers 6 3 0; val s.opb ≠ 0 ∧ val s.opa = 2 * val s.opb) ∧
    (let s := numbers (2 ^ 511) 1 0;
      let t := after (exec .mulw s)
      exec .mulw s = .next t ∧ t.rhi = wide 0 ∧ val s.opb ≠ 0) :=
  ⟨by decide +kernel, next_after _ rfl, by decide +kernel, by decide +kernel⟩

theorem witness_ShiftOraclesAgree :
    (0 < 512 ∧ (numbers 5 (2 ^ 0) 0).opb = wide (2 ^ 0)) ∧
      (511 < 512 ∧ (numbers 5 (2 ^ 511) 0).opb = wide (2 ^ 511)) := by decide +kernel

theorem witness_LongDivisionStepKeepsTheIdentity :
    (let N := max; let D := wide 1; let Q := wide 0; let R := wide 0;
      val N >>> (511 + 1) = (val Q >>> (511 + 1)) * val D + val R ∧ val R < val D ∧ val Q % 2 ^ (511 + 1) = 0) ∧
    (let N := wide 7; let D := wide 5; let Q := wide 0; let R := wide 3;
      val N >>> (0 + 1) = (val Q >>> (0 + 1)) * val D + val R ∧ val R < val D ∧ val Q % 2 ^ (0 + 1) = 0) := by
  decide +kernel

/-- The remainder of vector T9 after 64 steps: the next doubling needs 65 bits (R125). -/
theorem witness_ScalarLongDivisionComputesDivs :
    let N := max.set 0 0xFFFFFFFFFFFFFFFE
    let s : Word := 0xFFFFFFFFFFFFFFFF
    let r := 0xFFFFFFFFFFFFFFFE
    r < s.toNat ∧ 2 * r + (bankBit N 447).toNat = 0x1FFFFFFFFFFFFFFFD ∧ 2 ^ 64 ≤ 0x1FFFFFFFFFFFFFFFD := by
  decide +kernel

theorem witness_CommandLeavesOtherSlots :
    exec .muls (numbers 6 0 7) = .next (after (exec .muls (numbers 6 0 7))) ∧
    (let off : Offset := 0x18#6;
      ¬ (0x10 ≤ off.toNat ∧ off.toNat ≤ 0x17) ∧ off ≠ 0x23#6 ∧ off ≠ 0x21#6) ∧
    exec .divw (numbers 6 7 0) = .next (after (exec .divw (numbers 6 7 0))) ∧
    (let off : Offset := 0x21#6;
      ¬ (0x10 ≤ off.toNat ∧ off.toNat ≤ 0x17) ∧ off ≠ 0x23#6 ∧ ¬ (0x18 ≤ off.toNat ∧ off.toNat ≤ 0x1F)) :=
  ⟨next_after _ rfl, by decide, next_after _ (by decide +kernel), by decide⟩

theorem witness_StatusTellsDivideByZero :
    (after (exec .divw (numbers 5 0 1))).status = stDbz ∧ (after (exec .divs (numbers 5 1 0))).status = stDbz := by
  decide +kernel

theorem witness_CommandDependsOnItsOperandsOnly :
    (let s := numbers 6 7 1; let u := { numbers 6 7 2 with rlo := pat, status := stDbz };
      s.opa = u.opa ∧ s.opb = u.opb ∧ s.ops ≠ u.ops) ∧
    (let s := numbers 6 1 7; let u := { numbers 6 2 7 with rlo := pat, status := stDbz };
      s.opa = u.opa ∧ s.ops = u.ops ∧ s.opb ≠ u.opb) := by decide +kernel

theorem witness_ResetClearsEveryWord :
    let s := { numbers 6 7 8 with status := stDbz, pending := [.reset, .read 0#6] }
    s.pending = .reset :: [.read 0#6] := rfl

theorem witness_IdleEngineDoesNothing : (numbers 6 7 8).pending = [] := rfl

theorem witness_HostReadReturnsTheRegister : 0x24 ≤ (0x24#6).toNat ∧ 0x24 ≤ (0x3F#6).toNat := by decide

theorem witness_HostWriteStoresOrIgnores :
    (0x10 ≤ (0x10#6).toNat ∧ (0x10#6 : Offset) ≠ 0x20#6 ∧ (0x10#6 : Offset) ≠ 0x22#6) ∧
      (0x10 ≤ (0x3F#6).toNat ∧ (0x3F#6 : Offset) ≠ 0x20#6 ∧ (0x3F#6 : Offset) ≠ 0x22#6) := by decide

theorem witness_HostWriteTouchesOneSlot : (0x0F#6 : Offset) ≠ 0x22#6 ∧ (0x10#6 : Offset) ≠ 0x22#6 := by decide

/-- One event that changes each register. -/
theorem witness_OnlyOwnersChangeRegisters :
    let s := { numbers 6 7 8 with rlo := pat, rhi := pat, rs := 9, status := stDbz }
    (after (perform (.write 0x00#6 1) s)).opa ≠ s.opa ∧ (after (perform (.write 0x0F#6 1) s)).opb ≠ s.opb ∧
    (after (perform (.write 0x20#6 1) s)).ops ≠ s.ops ∧ (after (perform (.write 0x22#6 3) s)).rlo ≠ s.rlo ∧
    (after (perform (.write 0x22#6 3) s)).status ≠ s.status ∧
    (after (perform (.write 0x22#6 0) s)).rhi ≠ s.rhi ∧ (after (perform (.write 0x22#6 1) s)).rs ≠ s.rs ∧
    (Event.write 0x22#6 1 ≠ .reset) := by decide +kernel

/-- The first hypothesis of the same obligation, for each of those events. -/
theorem witness_OnlyOwnersChangeRegisters_next :
    let s := { numbers 6 7 8 with rlo := pat, rhi := pat, rs := 9, status := stDbz }
    completes (perform (.write 0x00#6 1) s) = true ∧ completes (perform (.write 0x0F#6 1) s) = true ∧
    completes (perform (.write 0x20#6 1) s) = true ∧ completes (perform (.write 0x22#6 3) s) = true ∧
    completes (perform (.write 0x22#6 0) s) = true ∧ completes (perform (.write 0x22#6 1) s) = true := by
  decide +kernel

theorem witness_ResultsPersistWithoutCommands :
    [Event.read 0x22#6, .write 0x23#6 1, .write 0x00#6 5].all Event.quiet = true := by decide

theorem witness_OperandsPersistAcrossCommands :
    let es := [Event.read 0x00#6, .write 0x22#6 3, .write 0x10#6 5, .write 0x3F#6 5]
    es.all Event.keepsOperands = true ∧ es.all Event.lawful = true := by decide

theorem witness_LoadOrderDoesNotMatter : List.Perm ([7, 6, 5, 4, 3, 2, 1, 0] : List (Fin 8)) indexOrder := by
  decide

theorem witness_PartlyLoadedOperandIsUsedAsItStands :
    List.Perm indexOrder indexOrder ∧ List.Perm ([7, 6, 5, 4, 3, 2, 1, 0] : List (Fin 8)) indexOrder ∧
      0 ≤ 8 ∧ 7 ≤ 8 ∧ 8 ≤ 8 := by decide

theorem witness_MovwCopiesABank : BankName.isOperand .opa = true ∧ BankName.isOperand .opb = true := by decide

theorem witness_LawfulEventsComplete :
    Event.lawful (.write 0x22#6 3#64) = true ∧ Event.lawful (.write 0x10#6 4#64) = true ∧
      Event.lawful (.read 0x3F#6) = true ∧ Event.lawful .reset = true := by decide

theorem witness_LawfulRunNeverStops :
    State.lawful { numbers 6 7 8 with pending := [.write 0x22#6 3#64, .read 0x10#6, .reset] } = true := by decide

theorem witness_StepKeepsStatusTruthful :
    let s := { numbers 6 7 8 with rhi := pat, status := stDbz, pending := [.write 0x00#6 1] }
    s.statusTruthful ∧ step s = .next (after (step s)) :=
  ⟨⟨by decide, fun _ => ⟨by decide +kernel, .inr rfl⟩⟩, next_after _ rfl⟩

theorem witness_NoHiddenState :
    let s := numbers 6 7 8
    let u := { numbers 6 7 8 with answers := [1, 2] }
    let es := [Event.write 0x22#6 1, .read 0x17#6]
    s.sameRegisters u ∧ performAll es s = .next (after (performAll es s)) :=
  ⟨⟨rfl, rfl, rfl, rfl, rfl, rfl, rfl⟩, next_after _ rfl⟩

theorem witness_CompareOrdersValues :
    (∃ i : Fin 8, i.val < 7 ∧ pat2[i] ≠ 0) ∧ (∀ i : Fin 8, i.val < 7 → (wide 5)[i] = 0) ∧
    ((∀ j : Fin 8, j < 0 → pat[j] = pat2[j]) ∧ pat[(0 : Fin 8)] ≠ pat2[(0 : Fin 8)]) ∧
    ((∀ j : Fin 8, j < 7 → max[j] = (max.set 7 0)[j]) ∧ max[(7 : Fin 8)] ≠ (max.set 7 0)[(7 : Fin 8)]) := by
  decide +kernel

theorem witness_AddAndSubReportCarry :
    val pat2 ≤ val pat ∧ val pat ≤ val pat ∧ val pat2 < val pat := by decide +kernel

theorem witness_ShiftsFollowTheirContract :
    (511#16).toNat < 512 ∧ 512 ≤ (512#16).toNat ∧ 512 ≤ (65535#16).toNat ∧ (0#16 : BitVec 16) = 0 := by decide

theorem witness_PlatformAccessReachesOneEngine :
    let p := Platform.reset [512, 0]
    p.wellFormed = true ∧ 1 < p.length ∧
      perform (.write 0x22#6 0) State.reset = .next (after (perform (.write 0x22#6 0) State.reset)) ∧
      perform (.write 0x22#6 4) State.reset = .refused .reservedCommandBits ∧ (4#64).getLsbD 2 = true :=
  ⟨by decide, by decide, next_after _ rfl, rfl, by decide⟩

theorem witness_PlatformRefusesPartialAccess :
    let p := Platform.reset [512, 0]
    p.wellFormed = true ∧ 4 ≠ 8 ∧ 516 % 8 ≠ 0 ∧ ∀ e ∈ p, 1024 < e.base ∨ e.base + 512 ≤ 1024 := by decide

theorem witness_BanksAreAligned : wellFormedBase 512 = true := by decide

end Sys2Proof.Tests
end

/-! PROOFS. Purity of the commands (spec/00_scope.md R12): for given operand values a command commits the same
results in every state, so its results are a function of the registers it names. -/

namespace Sys2Proof.Machine

theorem isScalar_eq_false_iff (i : Instr) : i.isScalar = false ↔ i = .mulw ∨ i = .divw := by
  cases i <;> simp [Instr.isScalar]

theorem isScalar_eq_true_iff (i : Instr) : i.isScalar = true ↔ i = .muls ∨ i = .divs := by
  cases i <;> simp [Instr.isScalar]

/-- What a wide command commits is fixed by the values of OPA and OPB alone. -/
theorem exec_commits_of_wideOperands (i : Instr) (hi : i.isScalar = false) (n d : Nat) :
    ∃ first second st, ∀ s, firstOperand s = n → wideOperand s = d →
      exec i s = .next (commitWide first second st s) := by
  obtain rfl | rfl := (isScalar_eq_false_iff i).mp hi
  · refine ⟨n * d % 2 ^ 512, n * d / 2 ^ 512, stOk, ?_⟩
    rintro s rfl rfl
    exact execMulw_eq s
  · by_cases hd : d = 0
    · exact ⟨0, 0, stDbz, fun s _ h => execDivw_zero s (h.trans hd)⟩
    · refine ⟨n / d, n % d, stOk, ?_⟩
      rintro s rfl rfl
      exact execDivw_nonzero s hd

/-- What a scalar command commits is fixed by the values of OPA and OPS alone. -/
theorem exec_commits_of_scalarOperands (i : Instr) (hi : i.isScalar = true) (n d : Nat) :
    ∃ first second st, ∀ s, firstOperand s = n → scalarOperand s = d →
      exec i s = .next (commitScalar first second st s) := by
  obtain rfl | rfl := (isScalar_eq_true_iff i).mp hi
  · refine ⟨n * d % 2 ^ 512, n * d / 2 ^ 512, stOk, ?_⟩
    rintro s rfl rfl
    exact execMuls_eq s
  · by_cases hd : d = 0
    · exact ⟨0, 0, stDbz, fun s _ h => execDivs_zero s (h.trans hd)⟩
    · refine ⟨n / d, n % d, stOk, ?_⟩
      rintro s rfl rfl
      exact execDivs_nonzero s hd

/-- Settles O28: by the width of the command, both states commit the one pair of results and the one status that
their common operand values fix. -/
theorem commandDependsOnItsOperandsOnly : Obligations.CommandDependsOnItsOperandsOnly := by
  unfold Obligations.CommandDependsOnItsOperandsOnly
  intro i s u hA hB hS
  have hfirst : firstOperand u = firstOperand s := congrArg val hA.symm
  cases hi : i.isScalar with
  | false =>
    have hsecond : wideOperand u = wideOperand s :=
      congrArg val (hB ((isScalar_eq_false_iff i).mp hi)).symm
    obtain ⟨first, second, st, hexec⟩ :=
      exec_commits_of_wideOperands i hi (firstOperand s) (wideOperand s)
    refine ⟨_, _, hexec s rfl rfl, hexec u hfirst hsecond, rfl, rfl, fun _ => rfl, fun hscalar => ?_⟩
    simp [(isScalar_eq_true_iff i).mpr hscalar] at hi
  | true =>
    have hsecond : scalarOperand u = scalarOperand s :=
      congrArg BitVec.toNat (hS ((isScalar_eq_true_iff i).mp hi)).symm
    obtain ⟨first, second, st, hexec⟩ :=
      exec_commits_of_scalarOperands i hi (firstOperand s) (scalarOperand s)
    refine ⟨_, _, hexec s rfl rfl, hexec u hfirst hsecond, rfl, rfl, fun hwide => ?_, fun _ => rfl⟩
    simp [(isScalar_eq_false_iff i).mpr hwide] at hi

end Sys2Proof.Machine

/-! PROOFS. The frame of a command (spec/10_state.md R34, R35): its width fixes which commit it makes, and a commit
keeps every register that a command of that width does not own. -/

namespace Sys2Proof.Machine

/-- A wide command makes a wide commit, a divide by zero included (R35). -/
theorem exec_eq_commitWide (i : Instr) (hi : i.isScalar = false) (s : State) :
    ∃ first second st, exec i s = .next (commitWide first second st s) := by
  obtain ⟨first, second, st, hexec⟩ :=
    exec_commits_of_wideOperands i hi (firstOperand s) (wideOperand s)
  exact ⟨first, second, st, hexec s rfl rfl⟩

/-- A scalar command makes a scalar commit, a divide by zero included (R35). -/
theorem exec_eq_commitScalar (i : Instr) (hi : i.isScalar = true) (s : State) :
    ∃ first second st, exec i s = .next (commitScalar first second st s) := by
  obtain ⟨first, second, st, hexec⟩ :=
    exec_commits_of_scalarOperands i hi (firstOperand s) (scalarOperand s)
  exact ⟨first, second, st, hexec s rfl rfl⟩

/-- Settles O25: by the width of the command, from the fields that its one commit keeps. -/
theorem commandWritesOnlyItsResults : Obligations.CommandWritesOnlyItsResults := by
  unfold Obligations.CommandWritesOnlyItsResults
  intro i s
  simp only [← isScalar_eq_false_iff, ← isScalar_eq_true_iff]
  cases hi : i.isScalar with
  | false =>
    obtain ⟨first, second, st, hexec⟩ := exec_eq_commitWide i hi s
    exact ⟨commitWide first second st s, hexec, by simp⟩
  | true =>
    obtain ⟨first, second, st, hexec⟩ := exec_eq_commitScalar i hi s
    exact ⟨commitScalar first second st s, hexec, by simp⟩

end Sys2Proof.Machine

/-! PROOFS. The register window (spec/20_memory.md R50, R51, R57, R58, R60): the word offsets as numbers, what a
read returns and what a write does at each of them. -/

namespace Sys2Proof.Machine

/-! ### Offsets as numbers -/

@[simp] theorem opa_offset_toNat (i : Fin 8) : (Reg.opa i).offset.toNat = i.val := by
  simp only [Reg.offset, BitVec.toNat_ofNat]
  omega

@[simp] theorem opb_offset_toNat (i : Fin 8) : (Reg.opb i).offset.toNat = 0x08 + i.val := by
  simp only [Reg.offset, BitVec.toNat_ofNat]
  omega

@[simp] theorem rlo_offset_toNat (i : Fin 8) : (Reg.rlo i).offset.toNat = 0x10 + i.val := by
  simp only [Reg.offset, BitVec.toNat_ofNat]
  omega

@[simp] theorem rhi_offset_toNat (i : Fin 8) : (Reg.rhi i).offset.toNat = 0x18 + i.val := by
  simp only [Reg.offset, BitVec.toNat_ofNat]
  omega

/-- The banks follow one another from slot 0x00, eight slots each (R51). -/
theorem exists_bank_offset_toNat (b : BankName) :
    ∃ k, ∀ i : Fin 8, (b.reg i).offset.toNat = 8 * k + i.val := by
  cases b with
  | opa => exact ⟨0, fun i => by simp [BankName.reg]⟩
  | opb => exact ⟨1, fun i => by simp [BankName.reg]⟩
  | rlo => exact ⟨2, fun i => by simp [BankName.reg]⟩
  | rhi => exact ⟨3, fun i => by simp [BankName.reg]⟩

theorem wellFormedBase_iff (base : Nat) : wellFormedBase base = true ↔ base % 512 = 0 := by
  simp [wellFormedBase]

/-- Settles O53: a bank starts at the slot of some multiple of 8, which is a multiple of 64 in bytes, and so is
the base. -/
theorem banksAreAligned : Obligations.BanksAreAligned := by
  unfold Obligations.BanksAreAligned
  intro b
  obtain ⟨k, hoff⟩ := exists_bank_offset_toNat b
  have hfirst : (b.reg 0).offset.toNat = 8 * k := hoff 0
  refine ⟨by omega, fun i => by rw [hoff i, hfirst], fun base hbase => ?_⟩
  rw [wellFormedBase_iff] at hbase
  omega

/-! ### Reads -/

theorem regAt_reserved (off : Offset) (h : 0x24 ≤ off.toNat) : regAt off = none := by
  cases hr : regAt off with
  | none => rfl
  | some r =>
    rw [← offset_of_regAt off r hr] at h
    cases r with
    | opa i => simp only [opa_offset_toNat] at h; omega
    | opb i => simp only [opb_offset_toNat] at h; omega
    | rlo i => simp only [rlo_offset_toNat] at h; omega
    | rhi i => simp only [rhi_offset_toNat] at h; omega
    | _ => exact absurd h (by decide)

theorem hostRead_reserved (off : Offset) (s : State) (h : 0x24 ≤ off.toNat) : hostRead off s = 0 := by
  simp [hostRead, regAt_reserved off h]

theorem readReg_of_sameRegisters (s t : State) (h : s.sameRegisters t) (r : Reg) :
    readReg s r = readReg t r := by
  obtain ⟨hopa, hopb, hops, hrlo, hrhi, hrs, hstatus⟩ := h
  cases r with
  | opa i => simp [readReg, hopa]
  | opb i => simp [readReg, hopb]
  | rlo i => simp [readReg, hrlo]
  | rhi i => simp [readReg, hrhi]
  | ops => exact hops
  | rs => exact hrs
  | cmd => rfl
  | status => exact hstatus

/-- What a host can read of an engine is a function of its seven registers (R57). -/
theorem hostRead_of_sameRegisters (s t : State) (h : s.sameRegisters t) (off : Offset) :
    hostRead off s = hostRead off t := by
  unfold hostRead
  cases regAt off with
  | none => rfl
  | some r => exact readReg_of_sameRegisters s t h r

theorem answer_sameRegisters (v : Word) (s : State) : (answer v s).sameRegisters s := sameRegisters_refl s

theorem perform_read (off : Offset) (s : State) :
    perform (.read off) s = .next (answer (hostRead off s) s) := rfl

/-- Settles O32: each listed offset is a register's or a reserved slot, and a read event does no more than `answer`,
which keeps every register and so every later read. -/
theorem hostReadReturnsTheRegister : Obligations.HostReadReturnsTheRegister := by
  unfold Obligations.HostReadReturnsTheRegister
  intro s
  have hread (r : Reg) : hostRead r.offset s = readReg s r := hostRead_offset r s
  refine ⟨fun i => hread (.opa i), fun i => hread (.opb i), fun i => hread (.rlo i), fun i => hread (.rhi i),
    hread .ops, hread .rs, hread .cmd, hread .status, fun off => hostRead_reserved off s, fun off => ?_⟩
  have hsame := answer_sameRegisters (hostRead off s) s
  exact ⟨_, perform_read off s, answer_answers .., hsame, answer_pending .., hostRead_of_sameRegisters _ _ hsame⟩

/-! ### Writes -/

@[simp] theorem hostWrite_opa (i : Fin 8) (v : Word) (s : State) :
    hostWrite (Reg.opa i).offset v s = .next (storeOpa i v s) := by
  simp [hostWrite]

@[simp] theorem hostWrite_opb (i : Fin 8) (v : Word) (s : State) :
    hostWrite (Reg.opb i).offset v s = .next (storeOpb i v s) := by
  simp [hostWrite]

@[simp] theorem hostWrite_ops (v : Word) (s : State) :
    hostWrite Reg.ops.offset v s = .next (storeOps v s) := by
  simp [hostWrite]

@[simp] theorem hostWrite_cmd (v : Word) (s : State) : hostWrite Reg.cmd.offset v s = execute v s := by
  simp [hostWrite]

/-- Past the two operand banks only OPS and CMD take a write (R58). -/
theorem hostWrite_ignored (off : Offset) (v : Word) (s : State) (hbanks : 0x10 ≤ off.toNat)
    (hops : off ≠ Reg.ops.offset) (hcmd : off ≠ Reg.cmd.offset) : hostWrite off v s = .next s := by
  obtain ⟨i, rfl, -⟩ | ⟨i, rfl, -⟩ | ⟨rfl, -⟩ | ⟨rfl, -⟩ | ⟨-, hignored⟩ := hostWrite_cases off v s
  · rw [opa_offset_toNat] at hbanks
    omega
  · rw [opb_offset_toNat] at hbanks
    omega
  · exact absurd rfl hops
  · exact absurd rfl hcmd
  · exact hignored

/-- Settles O33: by what a write does at each operand register and at CMD, and by its being ignored elsewhere. -/
theorem hostWriteStoresOrIgnores : Obligations.HostWriteStoresOrIgnores := by
  unfold Obligations.HostWriteStoresOrIgnores
  intro s v
  exact ⟨fun i => hostWrite_opa i v s, fun i => hostWrite_opb i v s, hostWrite_ops v s, hostWrite_cmd v s,
    fun off => hostWrite_ignored off v s⟩

end Sys2Proof.Machine

/-! PROOFS. The command word (spec/30_encoding.md R80, R84, R89): which words decode to which command, and what a
write to CMD does with the others. -/

namespace Sys2Proof

@[simp] theorem decode_encode (i : Instr) : decode (encode i) = .ok i := by cases i <;> rfl

theorem exists_encode_of_lt_four (v : Word) (h : v.toNat < 4) : ∃ i, v = encode i := by
  obtain rfl | rfl | rfl | rfl := word_below_four v h
  · exact ⟨.mulw, rfl⟩
  · exact ⟨.muls, rfl⟩
  · exact ⟨.divw, rfl⟩
  · exact ⟨.divs, rfl⟩

/-- The decoder accepts a command's own word and no other. -/
theorem decode_eq_ok_iff (v : Word) (i : Instr) : decode v = .ok i ↔ v = encode i := by
  constructor
  · intro h
    obtain ⟨j, rfl⟩ := exists_encode_of_lt_four v (lt_four_of_decode v i h)
    rw [decode_encode] at h
    rw [Except.ok.inj h]
  · rintro rfl
    exact decode_encode i

/-- The rows of the opcode map are the commands with their own words, all 64 bits compared (R89). -/
theorem mem_opcodeTable_iff (row : OpcodeRow) :
    row ∈ opcodeTable ↔ row = ⟨row.instr, encode row.instr, BitVec.allOnes 64⟩ := by
  constructor
  · revert row
    decide
  · intro h
    rw [h]
    cases row.instr <;> decide

/-- Settles O3: a row compares all bits of the word with its command's own word, the one word that decodes to it. -/
theorem decodeFollowsOpcodeMap : Obligations.DecodeFollowsOpcodeMap := by
  unfold Obligations.DecodeFollowsOpcodeMap
  intro v i
  rw [decode_eq_ok_iff]
  constructor
  · rintro rfl
    exact ⟨⟨i, encode i, BitVec.allOnes 64⟩, (mem_opcodeTable_iff _).mpr rfl, rfl, BitVec.and_allOnes⟩
  · rintro ⟨row, hrow, rfl, hselect⟩
    rw [(mem_opcodeTable_iff row).mp hrow] at hselect
    exact BitVec.and_allOnes.symm.trans hselect

/-- The words below 4 are those whose bits 63 to 2 are zero (R80). -/
theorem lt_four_iff_getLsbD (v : Word) : v.toNat < 4 ↔ ∀ k, 2 ≤ k → v.getLsbD k = false := by
  constructor
  · intro h k hk
    have hlt : v.toNat < 2 ^ k := h.trans_le (Nat.pow_le_pow_right Nat.two_pos hk)
    rw [← BitVec.testBit_toNat]
    exact Nat.testBit_lt_two_pow hlt
  · intro h
    exact Nat.lt_pow_two_of_testBit (n := 2) v.toNat fun k hk => (BitVec.testBit_toNat v).trans (h k hk)

end Sys2Proof

namespace Sys2Proof.Machine

theorem execute_reserved (v : Word) (h : 4 ≤ v.toNat) (s : State) :
    execute v s = .refused .reservedCommandBits := by
  simp [execute, decode_reserved v h]

@[simp] theorem execute_encode (i : Instr) (s : State) : execute (encode i) s = exec i s := by
  simp [execute]

/-- No command is refused or faults, the zero divisor included (R12, R182). -/
theorem exec_completes (i : Instr) (s : State) : ∃ t, exec i s = .next t := by
  obtain ⟨_, _, h⟩ | ⟨_, _, h⟩ | h | h := exec_cases i s <;> exact ⟨_, h⟩

/-- Settles O4: bits 63 to 2 are zero exactly in the words below 4, which are the command words, and a command
completes. -/
theorem reservedBitsAreRefused : Obligations.ReservedBitsAreRefused := by
  unfold Obligations.ReservedBitsAreRefused
  intro v s
  have hcmd : hostWrite 0x22#6 v s = execute v s := hostWrite_cmd v s
  rw [hcmd]
  constructor
  · rintro ⟨k, hk, hbit⟩
    refine execute_reserved v (Nat.le_of_not_lt fun hlt => ?_) s
    simp [(lt_four_iff_getLsbD v).mp hlt k hk] at hbit
  · intro hzero
    obtain ⟨i, rfl⟩ := exists_encode_of_lt_four v ((lt_four_iff_getLsbD v).mpr hzero)
    rw [execute_encode]
    exact exec_completes i s

end Sys2Proof.Machine

/-! PROOFS. The Multiply Engine's commands (spec/41_multiply.md R100, R101, R102, R107): what MULW and MULS commit as
numbers, the bounds that make the product fit the result registers, and the corner cases. -/

namespace Sys2Proof.Machine

/-! ### Products in base `2^512` -/

theorem val_le (X : Bank) : val X ≤ 2 ^ 512 - 1 :=
  Nat.le_sub_one_of_lt (val_lt X)

theorem val_mul_val_lt (X Y : Bank) : val X * val Y < 2 ^ 512 * 2 ^ 512 :=
  Nat.mul_lt_mul'' (val_lt X) (val_lt Y)

theorem val_mul_toNat_lt (X : Bank) (w : Word) : val X * w.toNat < 2 ^ 512 * 2 ^ 64 :=
  Nat.mul_lt_mul'' (val_lt X) w.isLt

theorem two_pow_word_le_two_pow_bank : 2 ^ 64 ≤ 2 ^ 512 :=
  pow_le_pow_right₀ one_le_two (by decide)

theorem val_wide_toNat (w : Word) : val (wide w.toNat) = w.toNat :=
  val_wide _ (w.isLt.trans_le two_pow_word_le_two_pow_bank)

theorem val_wide_low (v : Nat) : val (wide (v % 2 ^ 512)) = v % 2 ^ 512 :=
  val_wide _ (Nat.mod_lt _ (by positivity))

/-- The high half of a wide product fits a bank (R102). -/
theorem val_wide_product_high (X Y : Bank) :
    val (wide (val X * val Y / 2 ^ 512)) = val X * val Y / 2 ^ 512 :=
  val_wide _ (Nat.div_lt_of_lt_mul (val_mul_val_lt X Y))

/-- The overflow of a scalar product fits one word (R107). -/
theorem word_product_high_toNat (X : Bank) (w : Word) :
    (word (val X * w.toNat / 2 ^ 512)).toNat = val X * w.toNat / 2 ^ 512 := by
  rw [word_toNat]
  exact Nat.mod_eq_of_lt (Nat.div_lt_of_lt_mul (val_mul_toNat_lt X w))

/-- The low half of a product by one is the operand itself. -/
theorem wide_low_mul_one (X : Bank) : wide (val X * 1 % 2 ^ 512) = X := by
  rw [Nat.mul_one, wide_mod, wide_val]

theorem high_mul_one (X : Bank) : val X * 1 / 2 ^ 512 = 0 := by
  rw [Nat.mul_one, Nat.div_eq_of_lt (val_lt X)]

/-- The low half of a product by `2^k` is the operand shifted left. -/
theorem val_wide_low_mul_two_pow (X : Bank) (k : Nat) :
    val (wide (val X * 2 ^ k % 2 ^ 512)) = (val X <<< k) % 2 ^ 512 := by
  rw [val_wide_low, Nat.shiftLeft_eq]

/-- The high half of a product by `2^k` is what the left shift pushed out. -/
theorem mul_two_pow_div (a k n : Nat) (h : k ≤ n) : a * 2 ^ k / 2 ^ n = a >>> (n - k) := by
  rw [Nat.shiftRight_eq_div_pow, ← Nat.sub_add_cancel h, pow_add, Nat.mul_div_mul_right _ _ (by positivity),
    Nat.add_sub_cancel]

/-- The largest number below `B` times the largest below `d`: the low part is `B - d + 1` and the high part
`d - 2`. -/
theorem pred_mul_pred (B d : Nat) (hd : 2 ≤ d) (hB : d ≤ B) :
    (B - 1) * (d - 1) = (d - 2) * B + (B - d + 1) := by
  obtain ⟨e, rfl⟩ := Nat.exists_eq_add_of_le hd
  obtain ⟨f, rfl⟩ := Nat.exists_eq_add_of_le hB
  simp only [show 2 + e + f - 1 = 1 + e + f by omega, show 2 + e - 1 = 1 + e by omega,
    show 2 + e - 2 = e by omega, show 2 + e + f - (2 + e) = f by omega]
  ring

theorem pred_mul_pred_mod (B d : Nat) (hd : 2 ≤ d) (hB : d ≤ B) : (B - 1) * (d - 1) % B = B - d + 1 := by
  rw [pred_mul_pred B d hd hB, digit_mod _ _ _ (by omega)]

theorem pred_mul_pred_div (B d : Nat) (hd : 2 ≤ d) (hB : d ≤ B) : (B - 1) * (d - 1) / B = d - 2 := by
  rw [pred_mul_pred B d hd hB, digit_div _ _ _ (by omega)]

/-- Twice the largest number below `B`. -/
theorem pred_mul_two_mod (B : Nat) (hB : 3 ≤ B) : (B - 1) * 2 % B = B - 2 :=
  (pred_mul_pred_mod B 3 (by omega) hB).trans (by omega)

theorem pred_mul_two_div (B : Nat) (hB : 3 ≤ B) : (B - 1) * 2 / B = 1 :=
  pred_mul_pred_div B 3 (by omega) hB

/-! ### The commands as equations on values -/

theorem exec_mulw (s : State) :
    exec .mulw s = .next (commitWide (val s.opa * val s.opb % 2 ^ 512) (val s.opa * val s.opb / 2 ^ 512) stOk s) :=
  execMulw_eq s

theorem exec_muls (s : State) :
    exec .muls s =
      .next (commitScalar (val s.opa * s.ops.toNat % 2 ^ 512) (val s.opa * s.ops.toNat / 2 ^ 512) stOk s) :=
  execMuls_eq s

/-- Writing a command's own word to CMD runs it (R80). -/
theorem hostWrite_encode (i : Instr) (s : State) : hostWrite 0x22#6 (encode i) s = exec i s :=
  (hostWrite_cmd _ s).trans (execute_encode i s)

/-- Settles O7: MULW commits the two halves of the product, and each corner case is that product in base `2^512`. -/
theorem mulwRule : Obligations.MulwRule := by
  unfold Obligations.MulwRule
  intro s
  have hbase : 3 ≤ 2 ^ 512 := (by decide : 3 ≤ 2 ^ 64).trans two_pow_word_le_two_pow_bank
  refine ⟨_, exec_mulw s, (hostWrite_encode .mulw s).trans (exec_mulw s), rfl, rfl, rfl, rfl, rfl, rfl, rfl, rfl, rfl,
    ?zero, ?one, ?unit, ?power, ?largest, ?double⟩
  all_goals simp only [commitWide_rlo, commitWide_rhi]
  case zero =>
    intro h
    rw [Nat.mul_eq_zero.mpr h, Nat.zero_mod, Nat.zero_div]
    exact ⟨rfl, rfl⟩
  case one =>
    intro h
    rw [h, wide_low_mul_one, high_mul_one]
    exact ⟨rfl, rfl⟩
  case unit =>
    intro h
    rw [h, Nat.mul_comm, wide_low_mul_one, high_mul_one]
    exact ⟨rfl, rfl⟩
  case power =>
    intro k hk h
    rw [val_wide_product_high, h, val_wide_low_mul_two_pow, mul_two_pow_div _ _ _ hk.le]
    exact ⟨rfl, rfl⟩
  case largest =>
    intro ha hb
    rw [val_wide_product_high, ha, hb, pred_mul_pred_mod _ _ (by omega) le_rfl,
      pred_mul_pred_div _ _ (by omega) le_rfl, Nat.sub_self]
    exact ⟨rfl, rfl⟩
  case double =>
    intro ha hb
    rw [val_wide_low, ha, hb, pred_mul_two_mod _ hbase, pred_mul_two_div _ hbase]
    exact ⟨rfl, rfl⟩

/-! ### The scalar product -/

@[simp] theorem utilSetScalar_get (w : Word) (k : Nat) (hk : k < 8) :
    (utilSetScalar w)[k] = if k = 7 then w else 0 := by
  simp [utilSetScalar]

@[simp] theorem val_utilSetScalar (w : Word) : val (utilSetScalar w) = w.toNat := by
  simp [val]

/-- `setScalar(dst, w)` gives `wide(w)` (R153). -/
theorem wide_toNat (w : Word) : wide w.toNat = utilSetScalar w := by
  rw [← val_inj, val_wide_toNat, val_utilSetScalar]

/-- The bank of a scalar product's overflow holds it in word 7, its other words zero (R101, R107). -/
theorem wide_scalar_product_high (X : Bank) (w : Word) :
    wide (val X * w.toNat / 2 ^ 512) = utilSetScalar (word (val X * w.toNat / 2 ^ 512)) := by
  rw [← wide_toNat, word_product_high_toNat]

/-- Settles O8: MULS commits the low half of the product and its overflow, and each corner case is that product in
base `2^512`; MULW on `wide(s)` commits the same numbers. -/
theorem mulsRule : Obligations.MulsRule := by
  unfold Obligations.MulsRule
  intro s
  have hword : 3 ≤ 2 ^ 64 := by decide
  have hbase := two_pow_word_le_two_pow_bank
  refine ⟨_, exec_muls s, (hostWrite_encode .muls s).trans (exec_muls s), rfl, word_product_high_toNat _ _,
    rfl, rfl, rfl, rfl, rfl, rfl, rfl, ?zero, ?one, ?power, ?largest, ?anyOpb, ?wideOperand, ?double⟩
  all_goals simp only [commitScalar_rlo, commitScalar_rs]
  case zero =>
    intro h
    have hproduct : val s.opa * s.ops.toNat = 0 :=
      Nat.mul_eq_zero.mpr (h.imp_right fun hops => congrArg BitVec.toNat hops)
    rw [hproduct, Nat.zero_mod, Nat.zero_div]
    exact ⟨rfl, rfl⟩
  case one =>
    intro h
    rw [h, show (1 : Word).toNat = 1 from rfl, wide_low_mul_one, high_mul_one]
    exact ⟨rfl, rfl⟩
  case power =>
    intro k hk h
    rw [word_product_high_toNat, h, val_wide_low_mul_two_pow, mul_two_pow_div _ _ _ (by omega)]
    exact ⟨rfl, rfl⟩
  case largest =>
    intro ha hs
    rw [val_wide_low, ha, hs, pred_mul_pred_mod _ _ (by omega) hbase, pred_mul_pred_div _ _ (by omega) hbase]
    exact ⟨rfl, rfl⟩
  case anyOpb =>
    exact fun X => ⟨_, exec_muls _, rfl, rfl⟩
  case wideOperand =>
    refine ⟨_, exec_mulw _, ?_⟩
    simp only [commitWide_rlo, commitWide_rhi, val_wide_toNat, wide_scalar_product_high]
    refine ⟨trivial, utilSetScalar_get _ 7 (by omega), fun i hi => ?_⟩
    exact (utilSetScalar_get _ i.val i.isLt).trans (if_neg (by omega))
  case double =>
    intro ha hs
    rw [val_wide_low, ha, hs, show (2 : Word).toNat = 2 from rfl, pred_mul_two_mod _ (hword.trans hbase),
      pred_mul_two_div _ (hword.trans hbase)]
    exact ⟨rfl, rfl⟩

/-- Settles O9: the two halves committed are quotient and remainder of the product by `2^512`, which make it up, and
no other digits in base `2^512` do. -/
theorem exactProductLaw : Obligations.ExactProductLaw := by
  unfold Obligations.ExactProductLaw
  intro s
  refine ⟨⟨_, exec_mulw s, ?_⟩, ⟨_, exec_muls s, ?_⟩, ?_⟩
  · simp only [commitWide_rlo, commitWide_rhi, val_wide_product_high, val_wide_low]
    refine ⟨Nat.div_add_mod' _ _, trivial, trivial, fun lo hi h => ?_⟩
    rw [← h, digit_div _ _ _ (val_lt lo), digit_mod _ _ _ (val_lt lo), wide_val, wide_val]
    exact ⟨rfl, rfl⟩
  · simp only [commitScalar_rlo, commitScalar_rs, word_product_high_toNat, val_wide_low]
    exact Nat.div_add_mod' _ _
  · have hproduct : val s.opa * val s.opb ≤ (2 ^ 512 - 1) * (2 ^ 512 - 1) :=
      Nat.mul_le_mul (val_le _) (val_le _)
    have hsquare : 2 ^ 1024 = 2 ^ 512 * 2 ^ 512 := by rw [← pow_add]
    have hdouble : 2 ^ 513 = 2 * 2 ^ 512 := by rw [← pow_succ']
    have hlargest := pred_mul_pred (2 ^ 512) (2 ^ 512) (by omega) le_rfl
    rw [hsquare, hdouble, ← Nat.sub_mul]
    omega

/-- Settles O10: the product is at most that of the largest operands, whose overflow is `2^64 - 2`. -/
theorem scalarOverflowFitsOneWord : Obligations.ScalarOverflowFitsOneWord := by
  unfold Obligations.ScalarOverflowFitsOneWord
  have hlargest : (2 ^ 512 - 1) * (2 ^ 64 - 1) / 2 ^ 512 = 2 ^ 64 - 2 :=
    pred_mul_pred_div _ _ (by decide) two_pow_word_le_two_pow_bank
  have hfits : (2 ^ 512 - 1) * (2 ^ 64 - 1) < 2 ^ 576 := by
    have hbase : 2 ^ 576 = 2 ^ 512 * 2 ^ 64 := by rw [← pow_add]
    rw [hbase]
    exact Nat.mul_lt_mul'' (Nat.sub_one_lt (by positivity)) (by decide)
  refine ⟨hfits, fun s => ⟨_, exec_muls s, ?_⟩⟩
  have hproduct : val s.opa * s.ops.toNat ≤ (2 ^ 512 - 1) * (2 ^ 64 - 1) :=
    Nat.mul_le_mul (val_le _) (Nat.le_sub_one_of_lt s.ops.isLt)
  refine ⟨hproduct, hproduct.trans_lt hfits, hlargest ▸ Nat.div_le_div_right hproduct, word_product_high_toNat _ _,
    fun ha hs => ?_⟩
  rw [commitScalar_rs, ha, hs, hlargest]
  rfl

end Sys2Proof.Machine

/-! PROOFS. The word formulas of the shifts (spec/43_word_array_utilities.md R159, R160) as shifts of the value, bit by
bit, and the laws of the multiply that are stated with them (spec/41_multiply.md R106). -/

namespace Sys2Proof.Machine

/-! ### Bits of words and banks -/

theorem wide_bit (v k : Nat) (hk : k < 8) (j : Nat) (hj : j < 64) :
    (wide v)[k].getLsbD j = v.testBit (64 * (7 - k) + j) := by
  rw [wide_get _ k hk, word, BitVec.getLsbD_ofNat, decide_eq_true hj, Bool.true_and, Nat.testBit_shiftRight]

/-- A bank is `wide(v)` when its bits are those of `v`. -/
theorem eq_wide_of_bits (X : Bank) (v : Nat)
    (h : ∀ k (hk : k < 8) j, j < 64 → X[k].getLsbD j = v.testBit (64 * (7 - k) + j)) : X = wide v :=
  Vector.ext fun k hk => BitVec.eq_of_getLsbD_eq fun j hj => (h k hk j hj).trans (wide_bit v k hk j hj).symm

/-- Bit `j` of the word `q` places after word `k`, in terms of the position of bit `j` of word `k`. -/
theorem wordOrZero_bit_after (X : Bank) (k q j : Nat) (hk : k < 8) (hj : j < 64) :
    (wordOrZero X (k + q)).getLsbD j =
      (decide (64 * q ≤ 64 * (7 - k) + j) && (val X).testBit (64 * (7 - k) + j - 64 * q)) := by
  by_cases h : k + q < 8
  · have hposition : 64 * (7 - (k + q)) + j = 64 * (7 - k) + j - 64 * q := by omega
    rw [wordOrZero, dif_pos h, word_bit X _ h j hj, hposition, decide_eq_true (by omega), Bool.true_and]
  · rw [wordOrZero, dif_neg h, decide_eq_false (by omega), Bool.false_and]
    exact BitVec.getLsbD_zero

/-- Bit `j` of the word `q` places before word `k`; before word 0 there are zeros, as there are in the value. -/
theorem wordOrZero_bit_before (X : Bank) (k q j : Nat) (hk : k < 8) (hj : j < 64) :
    (if q ≤ k then wordOrZero X (k - q) else 0).getLsbD j = (val X).testBit (64 * q + (64 * (7 - k) + j)) := by
  split
  · have hposition : 64 * (7 - (k - q)) + j = 64 * q + (64 * (7 - k) + j) := by omega
    rw [wordOrZero, dif_pos (by omega), word_bit X _ (by omega) j hj, hposition]
  · have hlt : val X < 2 ^ (64 * q + (64 * (7 - k) + j)) :=
      (val_lt X).trans_le (pow_le_pow_right₀ one_le_two (by omega))
    rw [Nat.testBit_lt_two_pow hlt]
    exact BitVec.getLsbD_zero

/-- One word of a left shift by `r` bits: `h` moved up, with the top `r` bits of `l` below it (R159). -/
theorem shiftLeft_word_bit (h l : Word) (r j : Nat) (hr : r < 64) (hj : j < 64) :
    (h <<< r ||| if r = 0 then 0 else l >>> (64 - r)).getLsbD j =
      if j < r then l.getLsbD (64 - r + j) else h.getLsbD (j - r) := by
  rw [BitVec.getLsbD_or, BitVec.getLsbD_shiftLeft]
  split_ifs with hr0 hjr hjr
  · omega
  · simp [hj, hjr]
  · simp [hjr]
  · have hpast : l.getLsbD (64 - r + j) = false := BitVec.getLsbD_of_ge _ _ (by omega)
    simp [hj, hjr, hpast]

/-- One word of a right shift by `r` bits: `l` moved down, with the low `r` bits of `h` above it (R160). -/
theorem shiftRight_word_bit (h l : Word) (r j : Nat) (hr : r < 64) (hj : j < 64) :
    (l >>> r ||| if r = 0 then 0 else h <<< (64 - r)).getLsbD j =
      if j < 64 - r then l.getLsbD (r + j) else h.getLsbD (j - (64 - r)) := by
  rw [BitVec.getLsbD_or, BitVec.getLsbD_ushiftRight]
  split_ifs with hr0 hjr hjr
  · simp
  · omega
  · simp [hjr]
  · have hpast : l.getLsbD (r + j) = false := BitVec.getLsbD_of_ge _ _ (by omega)
    rw [BitVec.getLsbD_shiftLeft, hpast, decide_eq_true hj, decide_eq_false hjr]
    rfl

/-! ### The shifts -/

/-- `shiftLeft` shifts the value, for every count; what leaves the bank is lost (R159). -/
theorem utilShiftLeft_eq_wide (X : Bank) (bits : BitVec 16) :
    utilShiftLeft X bits = wide (val X <<< bits.toNat) := by
  refine eq_wide_of_bits _ _ fun k hk j hj => ?_
  have hbits := Nat.div_add_mod bits.toNat 64
  have hr : bits.toNat % 64 < 64 := Nat.mod_lt _ (by decide)
  rw [Nat.testBit_shiftLeft, utilShiftLeft, bankOf_get, shiftLeft_word_bit _ _ _ _ hr hj]
  split
  · rw [Nat.add_assoc, wordOrZero_bit_after X k _ _ hk (by omega)]
    congr 2
    · exact propext (by omega)
    · omega
  · rw [wordOrZero_bit_after X k _ _ hk (by omega)]
    congr 2
    · exact propext (by omega)
    · omega

/-- `shiftRight` shifts the value, for every count (R160). -/
theorem utilShiftRight_eq_wide (X : Bank) (bits : BitVec 16) :
    utilShiftRight X bits = wide (val X >>> bits.toNat) := by
  refine eq_wide_of_bits _ _ fun k hk j hj => ?_
  have hbits := Nat.div_add_mod bits.toNat 64
  have hr : bits.toNat % 64 < 64 := Nat.mod_lt _ (by decide)
  rw [Nat.testBit_shiftRight, utilShiftRight, bankOf_get, shiftRight_word_bit _ _ _ _ hr hj]
  split
  · rw [wordOrZero_bit_before X k _ _ hk (by omega)]
    congr 1
    omega
  · rw [Nat.sub_sub, wordOrZero_bit_before X k _ _ hk (by omega)]
    congr 1
    omega

/-! ### The laws -/

/-- Settles O11: each law is a law of the product of the two values; the shifts are those of the value. -/
theorem multiplyLaws : Obligations.MultiplyLaws := by
  unfold Obligations.MultiplyLaws
  intro s
  refine ⟨_, exec_mulw s, ?one, ?zero, ?zeroOpa, ?power, ?scalar, _, exec_mulw _, ?swap⟩
  all_goals simp only [commitWide_rlo, commitWide_rhi]
  case one =>
    intro h
    have hone : val (wide 1) = 1 := rfl
    rw [h, hone, wide_low_mul_one, high_mul_one]
    exact ⟨rfl, rfl⟩
  case zero =>
    intro h
    have hzero : val (wide 0) = 0 := rfl
    rw [h, hzero, Nat.mul_zero, Nat.zero_mod, Nat.zero_div]
    exact ⟨rfl, rfl⟩
  case zeroOpa =>
    intro h
    have hzero : val (wide 0) = 0 := rfl
    rw [h, hzero, Nat.zero_mul, Nat.zero_mod, Nat.zero_div]
    exact ⟨rfl, rfl⟩
  case power =>
    intro k hk h
    have hpower : val (wide (2 ^ k)) = 2 ^ k := val_wide _ (pow_lt_pow_right₀ one_lt_two hk)
    have hcount (n : Nat) (hn : n ≤ 512) : (BitVec.ofNat 16 n).toNat = n := by
      rw [BitVec.toNat_ofNat]
      omega
    rw [h, hpower, utilShiftLeft_eq_wide, utilShiftRight_eq_wide, hcount k hk.le, hcount _ (Nat.sub_le _ _),
      wide_mod, Nat.shiftLeft_eq, mul_two_pow_div _ _ _ hk.le]
    exact ⟨rfl, rfl⟩
  case scalar =>
    intro h
    refine ⟨_, exec_muls _, ?_⟩
    rw [h, val_utilSetScalar]
    exact ⟨rfl, wide_scalar_product_high s.opa 2⟩
  case swap =>
    rw [Nat.mul_comm]
    exact ⟨rfl, rfl⟩

end Sys2Proof.Machine

/-! PROOFS. The reference algorithms of the Multiply Engine (spec/41_multiply.md R103, R104): what each digit product,
each row and the whole procedure add to the value of the digits written so far. -/

namespace Sys2Proof.Machine

/-! ### Numbers as digits, the least significant first -/

/-- The number whose digit `i` in base `2^64`, counted from the least significant, is `d i`. -/
def digitsValue {n : Nat} (d : Fin n → Word) : Nat := ∑ i, (d i).toNat * 2 ^ (64 * i.val)

theorem digitsValue_eq_zero {n : Nat} (d : Fin n → Word) (h : ∀ i, d i = 0) : digitsValue d = 0 := by
  simp [digitsValue, h]

/-- The low `m` digits, and the `n` digits above them. -/
theorem digitsValue_append {m n : Nat} (d : Fin (m + n) → Word) :
    digitsValue d =
      digitsValue (fun i => d (Fin.castAdd n i)) + digitsValue (fun i => d (Fin.natAdd m i)) * 2 ^ (64 * m) := by
  simp only [digitsValue, Fin.sum_univ_add, Finset.sum_mul, Fin.val_castAdd, Fin.val_natAdd, Nat.mul_assoc,
    ← Nat.pow_add]
  simp only [Nat.mul_add, Nat.add_comm]

/-- Changing digit `k` takes the old digit away, with its weight, and adds the new one. -/
theorem digitsValue_change {n : Nat} (d e : Fin n → Word) (k : Fin n) (h : ∀ i, i ≠ k → e i = d i) :
    digitsValue e + (d k).toNat * 2 ^ (64 * k.val) = digitsValue d + (e k).toNat * 2 ^ (64 * k.val) := by
  have hrest : ∑ i ∈ Finset.univ.erase k, (e i).toNat * 2 ^ (64 * i.val) =
      ∑ i ∈ Finset.univ.erase k, (d i).toNat * 2 ^ (64 * i.val) :=
    Finset.sum_congr rfl fun i hi => by rw [h i (Finset.ne_of_mem_erase hi)]
  rw [digitsValue, digitsValue, ← Finset.sum_erase_add _ _ (Finset.mem_univ k), hrest,
    ← Finset.sum_erase_add Finset.univ (fun i => (d i).toNat * 2 ^ (64 * i.val)) (Finset.mem_univ k)]
  ring

theorem digitsValue_set_of_zero {n : Nat} (t : Vector Word n) (k : Nat) (hk : k < n) (w : Word) (h : t[k] = 0) :
    digitsValue (t.set k w).get = digitsValue t.get + w.toNat * 2 ^ (64 * k) := by
  have hchange := digitsValue_change t.get (t.set k w).get ⟨k, hk⟩
    fun i hi => Vector.getElem_set_ne hk i.isLt fun hki => hi (Fin.ext hki.symm)
  have hold : t.get ⟨k, hk⟩ = 0#64 := h
  have hnew : (t.set k w).get ⟨k, hk⟩ = w := Vector.getElem_set_self hk
  rwa [hold, hnew, BitVec.toNat_zero, Nat.zero_mul, Nat.add_zero] at hchange

/-- A bank's digits are its words, the last one first (R9). -/
theorem val_eq_digitsValue (X : Bank) : val X = digitsValue fun j : Fin 8 => X[7 - j.val] := by
  rw [val_eq_sum, digitsValue, Fin.sum_univ_eight]
  simp only [pow_mul]
  generalize (2 : Nat) ^ 64 = B
  change _ = X[7].toNat * B ^ 0 + X[6].toNat * B ^ 1 + X[5].toNat * B ^ 2 + X[4].toNat * B ^ 3
    + X[3].toNat * B ^ 4 + X[2].toNat * B ^ 5 + X[1].toNat * B ^ 6 + X[0].toNat * B ^ 7
  ring

/-- The digits below digit `j`, and digit `j` itself. -/
theorem val_mod_succ_digit (X : Bank) (j : Nat) (hj : j < 8) :
    val X % 2 ^ (64 * (j + 1)) = val X % 2 ^ (64 * j) + X[7 - j].toNat * 2 ^ (64 * j) := by
  have hdigit : X[7 - j].toNat = val X / 2 ^ (64 * j) % 2 ^ 64 := by
    conv_lhs => rw [← wide_val X]
    rw [wide_get _ _ (by omega), word_toNat, Nat.shiftRight_eq_div_pow, Nat.sub_sub_self (by omega)]
  rw [hdigit, Nat.mul_add, Nat.pow_add, Nat.mul_one, Nat.mod_mul, Nat.mul_comm (2 ^ (64 * j))]

theorem val_mod_all_digits (X : Bank) : val X % 2 ^ (64 * 8) = val X := by
  rw [show 64 * 8 = 512 from rfl, Nat.mod_eq_of_lt (val_lt X)]

/-! ### One digit of a running product -/

/-- A 128-bit sum cut into the digit that is written and the carry (R103, R104). -/
theorem word_bitField_split (x : Nat) (h : x < 2 ^ 128) :
    (word (bitField x 63 0)).toNat + (word (bitField x 127 64)).toNat * 2 ^ 64 = x := by
  have hbound (hi lo : Nat) (hwidth : hi - lo + 1 = 64) : bitField x hi lo < 2 ^ 64 := by
    rw [bitField, hwidth]
    exact Nat.mod_lt _ (by decide)
  rw [word_toNat, word_toNat, Nat.mod_eq_of_lt (hbound 63 0 rfl), Nat.mod_eq_of_lt (hbound 127 64 rfl),
    bitField_split x h]

/-- What writing one digit of a running product does: replacing digit `k` by the low half of a 128-bit sum that holds
the old digit and the carry adds the rest of the sum, with digit `k`'s weight, to the digits and the carry. -/
theorem digitsValue_carry {n : Nat} (d e : Fin n → Word) (k : Fin n) (p x : Nat) (c : Word)
    (hsum : x = p + (d k).toNat + c.toNat) (hx : x < 2 ^ 128) (hdigit : e k = word (bitField x 63 0))
    (hrest : ∀ i, i ≠ k → e i = d i) :
    digitsValue e + (word (bitField x 127 64)).toNat * 2 ^ (64 * (k.val + 1)) =
      digitsValue d + c.toNat * 2 ^ (64 * k.val) + p * 2 ^ (64 * k.val) := by
  have hchange := digitsValue_change d e k hrest
  have hsplit := congrArg (· * 2 ^ (64 * k.val)) ((word_bitField_split x hx).trans hsum)
  rw [hdigit] at hchange
  simp only [Nat.add_mul, Nat.mul_assoc, ← Nat.pow_add] at hsplit
  rw [Nat.mul_add, Nat.mul_one, Nat.add_comm (64 * k.val) 64]
  omega

/-! ### Loops over the eight indices -/

theorem downwards_take_succ (i : Fin 8) : downwards.take (i.val + 1) = downwards.take i.val ++ [i] := by
  revert i
  decide

/-- Induction over a loop that runs through the indices 0 to 7. -/
theorem foldl_downwards_induction {α : Type} (f : α → Fin 8 → α) (a : α) (P : Nat → α → Prop) (hzero : P 0 a)
    (hstep : ∀ (i : Fin 8) x, P i.val x → P (i.val + 1) (f x i)) :
    ∀ n, n ≤ 8 → P n ((downwards.take n).foldl f a) := by
  intro n
  induction n with
  | zero => exact fun _ => hzero
  | succ i ih =>
    intro hi
    rw [downwards_take_succ ⟨i, hi⟩, List.foldl_append]
    exact hstep ⟨i, hi⟩ _ (ih (by omega))

/-! ### Schoolbook multiplication -/

theorem mulDigit_rest (A B : Bank) (i : Fin 8) (acc : Vector Word 16 × Word) (j : Fin 8) (k : Nat) (hk : k < 16)
    (h : k ≠ i.val + j.val) : (mulDigit A B i acc j).1[k] = acc.1[k] :=
  Vector.getElem_set_ne (by omega) hk h.symm

/-- A digit product adds `A[7-j] * B[7-i]`, with the weight of digit `i + j`, to the digits and the carry (R103). -/
theorem mulDigit_value (A B : Bank) (i : Fin 8) (acc : Vector Word 16 × Word) (j : Fin 8) :
    digitsValue (mulDigit A B i acc j).1.get + (mulDigit A B i acc j).2.toNat * 2 ^ (64 * (i.val + j.val + 1)) =
      digitsValue acc.1.get + acc.2.toNat * 2 ^ (64 * (i.val + j.val)) +
        A[7 - j.val].toNat * B[7 - i.val].toNat * 2 ^ (64 * (i.val + j.val)) :=
  digitsValue_carry acc.1.get _ ⟨i.val + j.val, by omega⟩ _ _ acc.2 rfl
    (mulDigit_bound _ _ _ _ (BitVec.isLt _) (BitVec.isLt _) (BitVec.isLt _) (BitVec.isLt _))
    (Vector.getElem_set_self _)
    fun k hk => mulDigit_rest A B i acc j k.val k.isLt fun h => hk (Fin.ext h)

/-- The state of row `i` after `j` digit products: they have added `B[7-i]` times the low `j` digits of `A`, and no
digit from `i + 8` up is touched. -/
def RowInvariant (A B : Bank) (t : Vector Word 16) (i : Fin 8) (j : Nat) (acc : Vector Word 16 × Word) : Prop :=
  digitsValue acc.1.get + acc.2.toNat * 2 ^ (64 * (i.val + j)) =
      digitsValue t.get + val A % 2 ^ (64 * j) * B[7 - i.val].toNat * 2 ^ (64 * i.val) ∧
    ∀ k (hk : k < 16), i.val + 8 ≤ k → acc.1[k] = t[k]

theorem rowInvariant_all_digits (A B : Bank) (t : Vector Word 16) (i : Fin 8) :
    RowInvariant A B t i 8 (downwards.foldl (mulDigit A B i) (t, 0)) := by
  refine foldl_downwards_induction (mulDigit A B i) (t, 0) (RowInvariant A B t i) ?zero ?step 8 le_rfl
  case zero =>
    exact ⟨by simp [Nat.mod_one], fun _ _ _ => rfl⟩
  case step =>
    rintro j acc ⟨hvalue, hrest⟩
    refine ⟨?_, fun k hk hge => (mulDigit_rest A B i acc j k hk (by omega)).trans (hrest k hk hge)⟩
    rw [← Nat.add_assoc, mulDigit_value, hvalue, val_mod_succ_digit A j.val j.isLt, Nat.mul_add 64 i.val, Nat.pow_add]
    ring

/-- A row adds `A * B[7-i]`, with the weight of digit `i`, when the digit its carry goes to is zero (R103). -/
theorem mulRow_value (A B : Bank) (t : Vector Word 16) (i : Fin 8) (hcarry : t[i.val + 8] = 0) :
    digitsValue (mulRow A B t i).get =
      digitsValue t.get + val A * B[7 - i.val].toNat * 2 ^ (64 * i.val) := by
  obtain ⟨hvalue, hrest⟩ := rowInvariant_all_digits A B t i
  rw [val_mod_all_digits] at hvalue
  exact (digitsValue_set_of_zero _ _ (by omega) _ ((hrest _ _ le_rfl).trans hcarry)).trans hvalue

theorem mulRow_rest (A B : Bank) (t : Vector Word 16) (i : Fin 8) (k : Nat) (hk : k < 16) (h : i.val + 9 ≤ k) :
    (mulRow A B t i)[k] = t[k] := by
  obtain ⟨-, hrest⟩ := rowInvariant_all_digits A B t i
  exact (Vector.getElem_set_ne (by omega) hk (by omega)).trans (hrest k hk (by omega))

/-- The digits after `n` rows: their value is `A` times the low `n` digits of `B`, and every digit from `n + 8` up is
still zero. -/
def RowsInvariant (A B : Bank) (n : Nat) (t : Vector Word 16) : Prop :=
  digitsValue t.get = val A * (val B % 2 ^ (64 * n)) ∧ ∀ k (hk : k < 16), n + 8 ≤ k → t[k] = 0

theorem rowsInvariant_take (A B : Bank) (n : Nat) (hn : n ≤ 8) :
    RowsInvariant A B n ((downwards.take n).foldl (mulRow A B) (Vector.replicate 16 0)) := by
  refine foldl_downwards_induction (mulRow A B) _ (RowsInvariant A B) ?zero ?step n hn
  case zero =>
    have hblank (k : Nat) (hk : k < 16) : (Vector.replicate 16 (0 : Word))[k] = 0 := Vector.getElem_replicate _
    have hstart : digitsValue (Vector.replicate 16 (0 : Word)).get = 0 :=
      digitsValue_eq_zero _ fun k => hblank k.val k.isLt
    refine ⟨?_, fun k hk _ => hblank k hk⟩
    rw [hstart, Nat.mul_zero, Nat.pow_zero, Nat.mod_one, Nat.mul_zero]
  case step =>
    rintro i t ⟨hvalue, hzero⟩
    have hcarry : t[i.val + 8] = 0 := hzero _ _ le_rfl
    refine ⟨?_, fun k hk hge => (mulRow_rest A B t i k hk (by omega)).trans (hzero k hk (by omega))⟩
    rw [mulRow_value A B t i hcarry, hvalue, val_mod_succ_digit B i.val i.isLt]
    ring

/-- The two banks read off the sixteen digits make up their value (R103). -/
theorem digitsValue_eq_banks (t : Vector Word 16) :
    digitsValue t.get =
      val (bankOf fun w => t[15 - w.val]) * 2 ^ 512 + val (bankOf fun w => t[7 - w.val]) := by
  have hlow (j : Fin 8) : (bankOf fun w => t[7 - w.val])[7 - j.val] = t[j.val] := by
    simp [Nat.sub_sub_self (Nat.le_of_lt_succ j.isLt)]
  have hhigh (j : Fin 8) : (bankOf fun w => t[15 - w.val])[7 - j.val] = t[8 + j.val] := by
    have hindex : 15 - (7 - j.val) = 8 + j.val := by omega
    simp [hindex]
  simp only [val_eq_digitsValue, hlow, hhigh]
  have hwidth : 64 * 8 = 512 := rfl
  rw [Nat.add_comm, ← hwidth]
  exact digitsValue_append (m := 8) (n := 8) t.get

/-- The schoolbook procedure is exact (R103). -/
theorem mulSchoolbook_value (A B : Bank) :
    val (mulSchoolbook A B).2 * 2 ^ 512 + val (mulSchoolbook A B).1 = val A * val B := by
  obtain ⟨hvalue, -⟩ := rowsInvariant_take A B 8 le_rfl
  rw [val_mod_all_digits] at hvalue
  exact (digitsValue_eq_banks _).symm.trans hvalue

/-- Settles O12: the rows add up to the product, whose two halves are the only banks that make it up; the digits above
a row are zero by the invariant of the rows. -/
theorem schoolbookComputesTheProduct : Obligations.SchoolbookComputesTheProduct := by
  unfold Obligations.SchoolbookComputesTheProduct
  refine ⟨fun s => ⟨_, exec_mulw s, ?_⟩, fun x y d c => ?_, fun A B i k hk hi hge => ?_⟩
  · rw [commitWide_rlo, commitWide_rhi, ← mulSchoolbook_value, digit_mod _ _ _ (val_lt _), digit_div _ _ _ (val_lt _),
      wide_val, wide_val]
  · exact Nat.le_sub_one_of_lt (mulDigit_bound _ _ _ _ x.isLt y.isLt d.isLt c.isLt)
  · obtain ⟨-, hzero⟩ := rowsInvariant_take A B i hi.le
    exact hzero k hk hge

/-! ### The single pass -/

theorem mulScalarDigit_rest (A : Bank) (s : Word) (acc : Bank × Word) (j : Fin 8) (k : Nat) (hk : k < 8)
    (h : k ≠ 7 - j.val) : (mulScalarDigit A s acc j).1[k] = acc.1[k] :=
  Vector.getElem_set_ne (by omega) hk h.symm

/-- A digit product adds `A[7-j] * s`, with the weight of digit `j`, to the digits and the carry, when it is the first
to write its digit (R104). -/
theorem mulScalarDigit_value (A : Bank) (s : Word) (acc : Bank × Word) (j : Fin 8) (hblank : acc.1[7 - j.val] = 0) :
    val (mulScalarDigit A s acc j).1 + (mulScalarDigit A s acc j).2.toNat * 2 ^ (64 * (j.val + 1)) =
      val acc.1 + acc.2.toNat * 2 ^ (64 * j.val) + A[7 - j.val].toNat * s.toNat * 2 ^ (64 * j.val) := by
  rw [val_eq_digitsValue, val_eq_digitsValue acc.1]
  refine digitsValue_carry _ _ j (A[7 - j.val].toNat * s.toNat) _ acc.2 ?sum ?bound ?digit ?rest
  case sum =>
    rw [hblank]
    rfl
  case bound => exact mulDigit_bound _ _ 0 _ (BitVec.isLt _) s.isLt (by decide) acc.2.isLt
  case digit => exact Vector.getElem_set_self _
  case rest => exact fun k hk => mulScalarDigit_rest A s acc j _ _ (by omega)

/-- The state after `j` digit products: the low `j` digits of `A` times `s`, the digits above still zero. -/
def PassInvariant (A : Bank) (s : Word) (j : Nat) (acc : Bank × Word) : Prop :=
  val acc.1 + acc.2.toNat * 2 ^ (64 * j) = val A % 2 ^ (64 * j) * s.toNat ∧
    ∀ k (hk : k < 8), j + k < 8 → acc.1[k] = 0

theorem passInvariant_all_digits (A : Bank) (s : Word) : PassInvariant A s 8 (mulScalar A s) := by
  refine foldl_downwards_induction (mulScalarDigit A s) _ (PassInvariant A s) ?zero ?step 8 le_rfl
  case zero =>
    exact ⟨by simp [Nat.mod_one, utilZero, val_bankOf], fun k hk _ => bankOf_get _ k hk⟩
  case step =>
    rintro j acc ⟨hvalue, hzero⟩
    refine ⟨?_, fun k hk hlt =>
      (mulScalarDigit_rest A s acc j k hk (by omega)).trans (hzero k hk (by omega))⟩
    rw [mulScalarDigit_value A s acc j (hzero _ _ (by omega)), hvalue, val_mod_succ_digit A j.val j.isLt]
    ring

/-- The single pass is exact (R104). -/
theorem mulScalar_value (A : Bank) (s : Word) :
    (mulScalar A s).2.toNat * 2 ^ 512 + val (mulScalar A s).1 = val A * s.toNat := by
  obtain ⟨hvalue, -⟩ := passInvariant_all_digits A s
  have hwidth : 64 * 8 = 512 := rfl
  rw [val_mod_all_digits, hwidth, Nat.add_comm] at hvalue
  exact hvalue

/-- Settles O13: the digit products add up to the product, whose low half and overflow are the only bank and word that
make it up. -/
theorem singlePassComputesTheScalarProduct : Obligations.SinglePassComputesTheScalarProduct := by
  unfold Obligations.SinglePassComputesTheScalarProduct
  refine ⟨fun s => ⟨_, exec_muls s, ?_⟩, fun x y c => ?_⟩
  · rw [commitScalar_rlo, commitScalar_rs, ← mulScalar_value, digit_mod _ _ _ (val_lt _), digit_div _ _ _ (val_lt _),
      wide_val, word_of_toNat]
  · exact mulDigit_bound _ _ 0 _ x.isLt y.isLt (by decide) c.isLt

end Sys2Proof.Machine

/-! PROOFS. The Divide Engine's commands (spec/42_divide.md R120 to R123, R127 to R129): what DIVW and DIVS commit as
numbers, the bounds that make quotient and remainder fit the result registers, and the corner cases. -/

namespace Sys2Proof.Machine

/-! ### Quotient, remainder and status as functions of the operands -/

/-- What a divide commits (R120, R121): a quotient, a remainder and a status. -/
structure DivideResults where
  quotient : Nat
  remainder : Nat
  status : Word

/-- The results of a divide of `n` by `d`: those of the division identity (R122), or all zero with `ST_DBZ` (R123).
`exec_divw` and `exec_divs` say that they are what the two commands commit. -/
def divideResults (n d : Nat) : DivideResults :=
  if d = 0 then ⟨0, 0, stDbz⟩ else ⟨n / d, n % d, stOk⟩

theorem divideResults_zero (n : Nat) : divideResults n 0 = ⟨0, 0, stDbz⟩ := if_pos rfl

theorem divideResults_of_ne (n d : Nat) (h : d ≠ 0) : divideResults n d = ⟨n / d, n % d, stOk⟩ := if_neg h

/-- The identity and the bound of R122 determine the results. -/
theorem divideResults_mul_add (q d r : Nat) (h : r < d) : divideResults (q * d + r) d = ⟨q, r, stOk⟩ := by
  rw [divideResults_of_ne _ _ (by omega), digit_div _ _ _ h, digit_mod _ _ _ h]

theorem divideResults_mul (q d : Nat) (h : d ≠ 0) : divideResults (q * d) d = ⟨q, 0, stOk⟩ :=
  divideResults_mul_add q d 0 (Nat.pos_of_ne_zero h)

theorem divideResults_zero_dividend (d : Nat) (h : d ≠ 0) : divideResults 0 d = ⟨0, 0, stOk⟩ := by
  simpa using divideResults_mul 0 d h

theorem divideResults_one (n : Nat) : divideResults n 1 = ⟨n, 0, stOk⟩ := by
  simpa using divideResults_mul n 1 one_ne_zero

theorem divideResults_of_lt (n d : Nat) (h : n < d) : divideResults n d = ⟨0, n, stOk⟩ := by
  simpa using divideResults_mul_add 0 d n h

theorem divideResults_self (d : Nat) (h : d ≠ 0) : divideResults d d = ⟨1, 0, stOk⟩ := by
  simpa using divideResults_mul 1 d h

theorem divideResults_two_pow (n k : Nat) : divideResults n (2 ^ k) = ⟨n >>> k, n % 2 ^ k, stOk⟩ := by
  rw [divideResults_of_ne _ _ (by positivity), Nat.shiftRight_eq_div_pow]

/-- The division identity, its bound and its uniqueness (R122). -/
theorem divideResults_identity (n d : Nat) (h : d ≠ 0) :
    n = (divideResults n d).quotient * d + (divideResults n d).remainder ∧ (divideResults n d).remainder < d ∧
      (divideResults n d).quotient = n / d ∧ (divideResults n d).remainder = n % d ∧
      ∀ q r : Nat, n = q * d + r → r < d →
        q = (divideResults n d).quotient ∧ r = (divideResults n d).remainder := by
  refine ⟨?identity, ?bound, ?floor, ?rest, ?unique⟩
  case unique =>
    rintro q r rfl hr
    rw [divideResults_mul_add q d r hr]
    exact ⟨rfl, rfl⟩
  all_goals rw [divideResults_of_ne n d h]
  case identity => exact (Nat.div_add_mod' n d).symm
  case bound => exact Nat.mod_lt n (Nat.pos_of_ne_zero h)

theorem divideResults_quotient_le (n d : Nat) : (divideResults n d).quotient ≤ n := by
  unfold divideResults
  split
  · exact Nat.zero_le n
  · exact Nat.div_le_self n d

theorem divideResults_remainder_le (n d : Nat) : (divideResults n d).remainder ≤ d := by
  unfold divideResults
  split
  · exact Nat.zero_le d
  · exact (Nat.mod_lt n (by omega)).le

/-- A divisor above `b` goes at most once into a dividend below `2 * b`. -/
theorem divideResults_quotient_le_one (n d b : Nat) (hn : n < 2 * b) (hd : b < d) :
    (divideResults n d).quotient = 0 ∨ (divideResults n d).quotient = 1 := by
  rw [divideResults_of_ne n d (by omega)]
  have hlt : n / d < 2 := Nat.div_lt_of_lt_mul (by omega)
  exact Nat.le_one_iff_eq_zero_or_eq_one.mp (Nat.le_of_lt_succ hlt)

/-! ### The results fit their registers -/

theorem val_wide_quotient (X : Bank) (d : Nat) :
    val (wide (divideResults (val X) d).quotient) = (divideResults (val X) d).quotient :=
  val_wide _ ((divideResults_quotient_le _ _).trans_lt (val_lt X))

theorem val_wide_remainder (n : Nat) (Y : Bank) :
    val (wide (divideResults n (val Y)).remainder) = (divideResults n (val Y)).remainder :=
  val_wide _ ((divideResults_remainder_le _ _).trans_lt (val_lt Y))

theorem scalar_remainder_lt (n : Nat) (w : Word) : (divideResults n w.toNat).remainder < 2 ^ 64 :=
  (divideResults_remainder_le _ _).trans_lt w.isLt

/-- The remainder of a scalar divide fits one word (R129). -/
theorem word_remainder_toNat (n : Nat) (w : Word) :
    (word (divideResults n w.toNat).remainder).toNat = (divideResults n w.toNat).remainder := by
  rw [word_toNat, Nat.mod_eq_of_lt (scalar_remainder_lt n w)]

/-! ### Words of a bank of a given value -/

/-- The bank of a value below `2^64` holds it in word 7, its other words zero. -/
theorem wide_get_of_lt (v : Nat) (h : v < 2 ^ 64) :
    (wide v)[7] = word v ∧ ∀ i : Fin 8, i.val < 7 → (wide v)[i] = 0 := by
  obtain ⟨w, rfl⟩ : ∃ w : Word, v = w.toNat := ⟨word v, by rw [word_toNat, Nat.mod_eq_of_lt h]⟩
  rw [wide_toNat, word_of_toNat]
  exact ⟨utilSetScalar_get w 7 (by decide), fun i hi => (utilSetScalar_get w i.val i.isLt).trans (if_neg hi.ne)⟩

theorem wide_val_replicate_get (w : Word) (i : Fin 8) : (wide (val (Vector.replicate 8 w)))[i] = w := by
  rw [wide_val]
  exact Vector.getElem_replicate i.isLt

theorem wide_zero_get (i : Fin 8) : (wide 0)[i] = 0 := by
  rw [← zeroBank_eq_wide]
  revert i
  decide

/-- A bank is zero exactly when each of its words is (R123). -/
theorem val_eq_zero_iff (X : Bank) : val X = 0 ↔ ∀ i : Fin 8, X[i] = 0 := by
  have hzero : val (wide 0) = 0 := rfl
  rw [← hzero, val_inj]
  constructor
  · rintro rfl
    exact wide_zero_get
  · exact fun h => Vector.ext fun k hk => (h ⟨k, hk⟩).trans (wide_zero_get ⟨k, hk⟩).symm

theorem toNat_ne_zero_of_ne_zero (w : Word) (h : w ≠ 0) : w.toNat ≠ 0 :=
  fun hw => h (BitVec.eq_of_toNat_eq hw)

/-! ### The commands as equations on values -/

/-- DIVW commits the results of the divide of OPA by OPB, the zero divisor included. -/
theorem exec_divw (s : State) (R : DivideResults) (h : divideResults (val s.opa) (val s.opb) = R) :
    exec .divw s = .next (commitWide R.quotient R.remainder R.status s) := by
  subst h
  by_cases hd : val s.opb = 0
  · rw [hd, divideResults_zero]
    exact execDivw_zero s hd
  · rw [divideResults_of_ne _ _ hd]
    exact execDivw_nonzero s hd

/-- DIVS commits the results of the divide of OPA by OPS, the zero divisor included. -/
theorem exec_divs (s : State) (R : DivideResults) (h : divideResults (val s.opa) s.ops.toNat = R) :
    exec .divs s = .next (commitScalar R.quotient R.remainder R.status s) := by
  subst h
  by_cases hs : s.ops.toNat = 0
  · rw [hs, divideResults_zero]
    exact execDivs_zero s hs
  · rw [divideResults_of_ne _ _ hs]
    exact execDivs_nonzero s hs

/-! ### The rules -/

/-- Settles O14: DIVW commits the results of the divide of the two values, and each corner case is one of that divide's
equations. -/
theorem divwRule : Obligations.DivwRule := by
  unfold Obligations.DivwRule
  intro s
  have hexec := exec_divw s _ rfl
  refine ⟨_, hexec, (hostWrite_encode .divw s).trans hexec, ?byZero, ?nonzero, rfl, rfl, rfl, rfl, rfl, rfl,
    ?zeroDividend, ?one, ?less, ?self, ?power, ?largest, ?highDivisor, ?anyOps, ?worked⟩
  case byZero =>
    intro hd
    rw [hd, divideResults_zero]
    exact ⟨rfl, rfl, rfl⟩
  case nonzero =>
    intro hd
    rw [divideResults_of_ne _ _ hd]
    exact ⟨rfl, rfl, rfl⟩
  case zeroDividend =>
    intro hn hd
    rw [hn, divideResults_zero_dividend _ hd]
    exact ⟨rfl, rfl, rfl⟩
  case one =>
    intro hd
    rw [hd, divideResults_one]
    exact ⟨wide_val _, rfl⟩
  case less =>
    intro hlt
    rw [divideResults_of_lt _ _ hlt]
    exact ⟨rfl, wide_val _⟩
  case self =>
    intro hn hd
    rw [hn, divideResults_self _ hd]
    exact ⟨rfl, rfl⟩
  case power =>
    intro k _ hd
    rw [commitWide_rlo, commitWide_rhi, val_wide_quotient, val_wide_remainder, hd, divideResults_two_pow]
    exact ⟨rfl, rfl⟩
  case largest =>
    intro hn hd
    have hmax : 2 ^ 512 - 1 = val (Vector.replicate 8 0xFFFFFFFFFFFFFFFF#64) := by decide +kernel
    rw [hn, hd, divideResults_one, hmax]
    exact wide_val_replicate_get _
  case highDivisor =>
    intro hd
    have hdouble : 2 ^ 512 = 2 * 2 ^ 511 := by rw [← pow_succ']
    rw [commitWide_rlo]
    exact (divideResults_quotient_le_one _ _ _ ((val_lt _).trans_eq hdouble) hd).imp (congrArg wide) (congrArg wide)
  case anyOps =>
    exact fun x => ⟨_, exec_divw _ _ rfl, rfl, rfl, rfl⟩
  case worked =>
    intro hn hd
    rw [hn, hd, divideResults_mul_add 1234567891011121 10 3 (by decide)]
    exact ⟨rfl, rfl, rfl⟩

/-- Settles O15: DIVS commits the results of the divide of the two values, and each corner case is one of that divide's
equations; DIVW on `wide(s)` commits the same numbers. -/
theorem divsRule : Obligations.DivsRule := by
  unfold Obligations.DivsRule
  intro s
  have hexec := exec_divs s _ rfl
  refine ⟨_, hexec, (hostWrite_encode .divs s).trans hexec, ?byZero, ?nonzero, rfl, rfl, rfl, rfl, rfl, rfl,
    ?zeroDividend, ?one, ?less, ?power, ?largest, ?anyOpb, ?wideDivisor, ?worked⟩
  case byZero =>
    intro hs
    rw [hs, show (0 : Word).toNat = 0 from rfl, divideResults_zero]
    exact ⟨rfl, rfl, rfl⟩
  case nonzero =>
    intro hs
    rw [commitScalar_rs, word_remainder_toNat, divideResults_of_ne _ _ (toNat_ne_zero_of_ne_zero _ hs)]
    exact ⟨rfl, rfl, rfl⟩
  case zeroDividend =>
    intro hn hs
    rw [hn, divideResults_zero_dividend _ (toNat_ne_zero_of_ne_zero _ hs)]
    exact ⟨rfl, rfl, rfl⟩
  case one =>
    intro hs
    rw [hs, show (1 : Word).toNat = 1 from rfl, divideResults_one]
    exact ⟨wide_val _, rfl⟩
  case less =>
    intro hlt
    obtain ⟨hlast, hbefore⟩ := wide_get_of_lt (val s.opa) (hlt.trans s.ops.isLt)
    rw [wide_val] at hlast hbefore
    rw [divideResults_of_lt _ _ hlt]
    exact ⟨rfl, hlast.symm, hbefore⟩
  case power =>
    intro k _ hs
    rw [commitScalar_rlo, commitScalar_rs, val_wide_quotient, word_remainder_toNat, hs, divideResults_two_pow]
    exact ⟨rfl, rfl⟩
  case largest =>
    intro hn hs
    have hones : 2 ^ 512 - 1 = val (Vector.replicate 8 1) * (2 ^ 64 - 1) := by decide +kernel
    rw [hn, hs, hones, divideResults_mul _ _ (by decide)]
    exact ⟨wide_val_replicate_get 1, rfl⟩
  case anyOpb =>
    exact fun X => ⟨_, exec_divs _ _ rfl, rfl, rfl, rfl⟩
  case wideDivisor =>
    have hresults := congrArg (divideResults (val s.opa)) (val_wide_toNat s.ops)
    exact ⟨_, exec_divw _ _ hresults, rfl, rfl, wide_get_of_lt _ (scalar_remainder_lt _ _)⟩
  case worked =>
    intro hn hs
    rw [hn, hs, show (10 : Word).toNat = 10 from rfl, divideResults_mul_add 1234567891011121 10 3 (by decide)]
    exact ⟨rfl, rfl, rfl⟩

/-- Settles O16: the registers hold the results of the divide, which satisfy the identity and are fixed by it. -/
theorem divisionIdentityLaw : Obligations.DivisionIdentityLaw := by
  unfold Obligations.DivisionIdentityLaw
  refine fun s => ⟨fun hd => ⟨_, exec_divw s _ rfl, ?_⟩, fun hs => ⟨_, exec_divs s _ rfl, ?_⟩⟩
  · rw [commitWide_rlo, commitWide_rhi, val_wide_quotient, val_wide_remainder]
    exact divideResults_identity _ _ hd
  · rw [commitScalar_rlo, commitScalar_rs, val_wide_quotient, word_remainder_toNat]
    exact divideResults_identity _ _ (toNat_ne_zero_of_ne_zero _ hs)

/-- Settles O17: a zero divisor commits the bank of 0, whose words are zero, and a commit keeps the operands and the
result register that it does not own. -/
theorem divideByZeroOutcome : Obligations.DivideByZeroOutcome := by
  unfold Obligations.DivideByZeroOutcome
  refine fun s => ⟨val_eq_zero_iff s.opb, fun hd => ⟨_, execDivw_zero s hd, ?_⟩,
    fun hs => ⟨_, execDivs_zero s (congrArg BitVec.toNat hs), ?_⟩⟩
  · exact ⟨wide_zero_get, wide_zero_get, rfl, rfl, rfl, rfl, rfl⟩
  · exact ⟨wide_zero_get, rfl, rfl, rfl, rfl, rfl, rfl⟩

/-- Settles O18: the remainder is below a divisor of at most `2^64 - 1`; the dividend `2^64 - 2` is its own remainder
by that divisor. -/
theorem scalarRemainderFitsOneWord : Obligations.ScalarRemainderFitsOneWord := by
  unfold Obligations.ScalarRemainderFitsOneWord
  refine fun s hs => ⟨_, exec_divs s _ rfl, ?_⟩
  obtain ⟨-, hbound, -, hrest, -⟩ :=
    divideResults_identity (val s.opa) s.ops.toNat (toNat_ne_zero_of_ne_zero _ hs)
  rw [commitScalar_rs, word_remainder_toNat]
  refine ⟨hrest, hbound, by omega, fun hlargest hn => ?_⟩
  rw [hlargest, hn, divideResults_of_lt _ _ (by decide)]
  rfl

/-- Settles O19: each row of the table is an equation of the divide, the same one for DIVW and for DIVS. -/
theorem divideEdgeCaseTable : Obligations.DivideEdgeCaseTable := by
  unfold Obligations.DivideEdgeCaseTable
  refine fun s => ⟨⟨_, exec_divw s _ rfl, ?_⟩, ⟨_, exec_divs s _ rfl, ?_⟩⟩
  · refine ⟨fun hn hd => ?zeroDividend, fun hd => ?byZero, fun _ hd => ?one, fun hn hd => ?less,
      fun hn hd => ?oneByOne, fun k _ hd => ?power⟩
    case zeroDividend => rw [hn, divideResults_zero_dividend _ hd]; exact ⟨rfl, rfl, rfl⟩
    case byZero => rw [hd, divideResults_zero]; exact ⟨rfl, rfl, rfl⟩
    case one => rw [hd, divideResults_one]; exact ⟨wide_val _, rfl, rfl⟩
    case less => rw [hn, divideResults_of_lt _ _ hd]; exact ⟨rfl, rfl, rfl⟩
    case oneByOne => rw [hn, hd, divideResults_one]; exact ⟨rfl, rfl, rfl⟩
    case power =>
      rw [commitWide_rlo, commitWide_rhi, val_wide_quotient, val_wide_remainder, hd, divideResults_two_pow]
      exact ⟨rfl, rfl, rfl⟩
  · have hone : (1 : Word).toNat = 1 := rfl
    refine ⟨fun hn hs => ?zeroDividend, fun hs => ?byZero, fun _ hs => ?one, fun hn hs => ?less,
      fun hn hs => ?oneByOne, fun k _ hs => ?power⟩
    case zeroDividend =>
      rw [hn, divideResults_zero_dividend _ (toNat_ne_zero_of_ne_zero _ hs)]
      exact ⟨rfl, rfl, rfl⟩
    case byZero => rw [hs, show (0 : Word).toNat = 0 from rfl, divideResults_zero]; exact ⟨rfl, rfl, rfl⟩
    case one => rw [hs, hone, divideResults_one]; exact ⟨wide_val _, rfl, rfl⟩
    case less => rw [hn, divideResults_of_lt _ _ hs]; exact ⟨rfl, rfl, rfl⟩
    case oneByOne => rw [hn, hs, hone, divideResults_one]; exact ⟨rfl, rfl, rfl⟩
    case power =>
      rw [commitScalar_rlo, commitScalar_rs, val_wide_quotient, word_remainder_toNat, hs, divideResults_two_pow]
      exact ⟨rfl, rfl, rfl⟩

/-! ### Divide and multiply -/

/-- DIVW on an exact multiple of the divisor (R128). -/
theorem exec_divw_mul (s : State) (q : Nat) (hd : val s.opb ≠ 0) (hn : val s.opa = q * val s.opb) :
    exec .divw s = .next (commitWide q 0 stOk s) :=
  exec_divw s ⟨q, 0, stOk⟩ (by rw [hn, divideResults_mul q _ hd])

/-- A wide product whose high half is zero is its own low half. -/
theorem product_mod_of_high_zero (X Y : Bank) (h : wide (val X * val Y / 2 ^ 512) = wide 0) :
    val X * val Y % 2 ^ 512 = val X * val Y := by
  have hhigh : val X * val Y / 2 ^ 512 = 0 := by
    rw [← val_wide_product_high, h]
    rfl
  exact Nat.mod_eq_of_lt (Nat.lt_of_div_eq_zero (by positivity) hhigh)

/-- Settles O20: an exact multiple has the multiplier as its quotient and no remainder, and a product that fits one bank
is such a multiple of OPB. -/
theorem divideUndoesMultiply : Obligations.DivideUndoesMultiply := by
  unfold Obligations.DivideUndoesMultiply
  constructor
  · exact fun s q hd hn => ⟨_, exec_divw_mul s q hd hn, rfl, rfl⟩
  · intro s t hmul hhigh hd
    obtain rfl := Host.Outcome.next.inj ((exec_mulw s).symm.trans hmul)
    have hproduct := (val_wide_low _).trans (product_mod_of_high_zero s.opa s.opb hhigh)
    exact ⟨_, exec_divw_mul _ (val s.opa) hd hproduct, wide_val _, rfl, rfl⟩

end Sys2Proof.Machine

/-! PROOFS. The word-array utilities (spec/43_word_array_utilities.md R151 to R153, R156 to R158, R161, R163): those
that work word by word, the carry and borrow chains as sums and differences of values, and the shift oracles of the
two engines. -/

namespace Sys2Proof.Machine

/-! ### Word by word -/

theorem utilZero_eq_wide : utilZero = wide 0 := zeroBank_eq_wide

/-- Settles O47: word by word, and for `setScalar` by the bank that `wide(s)` is. -/
theorem wordUtilitiesFollowTheirRules : Obligations.WordUtilitiesFollowTheirRules := by
  unfold Obligations.WordUtilitiesFollowTheirRules
  refine ⟨utilZero_eq_wide, bankOf_words, fun s => ?_, fun a b i => bankOf_get _ i.val i.isLt⟩
  exact ⟨(wide_toNat s).symm, val_utilSetScalar s, utilSetScalar_get s 7 (by decide),
    fun i hi => (utilSetScalar_get s i.val i.isLt).trans (if_neg hi.ne)⟩

/-! ### Loops from the least significant word up -/

/-- Induction over a loop that runs through the indices 7 to 0, the way a carry goes: step `j` is at word `7 - j`, the
word of digit `j`. -/
theorem foldl_upwards_induction {α : Type} (f : α → Fin 8 → α) (a : α) (P : Nat → α → Prop) (hzero : P 0 a)
    (hstep : ∀ (j : Fin 8) x, P j.val x → P (j.val + 1) (f x j.rev)) : P 8 (upwards.foldl f a) :=
  foldl_downwards_induction (fun x j => f x j.rev) a P hzero hstep 8 le_rfl

/-- The low `j` digits of a bank are fixed by its last `j` words. -/
theorem val_mod_congr (X Y : Bank) (j : Nat) (hj : j ≤ 8) (h : ∀ i (hi : i < 8), i < j → X[7 - i] = Y[7 - i]) :
    val X % 2 ^ (64 * j) = val Y % 2 ^ (64 * j) := by
  induction j with
  | zero => simp [Nat.mod_one]
  | succ j ih =>
    rw [val_mod_succ_digit X j hj, val_mod_succ_digit Y j hj, h j hj (Nat.lt_succ_self j),
      ih (by omega) fun i hi hij => h i hi (by omega)]

theorem rev_eq_seven_sub (j : Fin 8) : j.rev.val = 7 - j.val := by
  rw [Fin.val_rev]
  omega

/-- The low `j` digits, and digit `j` by its word. -/
theorem val_mod_succ_word (X : Bank) (j : Fin 8) :
    val X % 2 ^ (64 * (j.val + 1)) = val X % 2 ^ (64 * j.val) + X[j.rev].toNat * 2 ^ (64 * j.val) := by
  rw [val_mod_succ_digit X j.val j.isLt]
  simp only [Fin.getElem_fin, rev_eq_seven_sub]

/-- Writing the word of digit `j` puts it above the low `j` digits, which it leaves alone. -/
theorem val_mod_set_word (X : Bank) (j : Fin 8) (w : Word) :
    val (X.set j.rev w) % 2 ^ (64 * (j.val + 1)) = val X % 2 ^ (64 * j.val) + w.toNat * 2 ^ (64 * j.val) := by
  have hlow : val (X.set j.rev w) % 2 ^ (64 * j.val) = val X % 2 ^ (64 * j.val) :=
    val_mod_congr _ _ j.val j.isLt.le fun i hi hij =>
      Vector.getElem_set_ne j.rev.isLt (by omega) (by rw [rev_eq_seven_sub]; omega)
  have hdigit : (X.set j.rev w)[j.rev] = w := Vector.getElem_set_self j.rev.isLt
  rw [val_mod_succ_word, hlow, hdigit]

/-- The place of digit `j + 1`. -/
theorem two_pow_succ_digit (j : Nat) : 2 ^ (64 * (j + 1)) = 2 ^ 64 * 2 ^ (64 * j) := by
  rw [Nat.mul_add, Nat.mul_one, Nat.add_comm, Nat.pow_add]

/-! ### The carry chain of `add` -/

/-- The sum of the low `j` digits: `j` digits and the carry out of them (R156). -/
def CarryInvariant (a b : Bank) (j : Nat) (acc : Bank × Nat) : Prop :=
  val acc.1 % 2 ^ (64 * j) + acc.2 * 2 ^ (64 * j) = val a % 2 ^ (64 * j) + val b % 2 ^ (64 * j)

theorem addWord_keeps_carryInvariant (a b : Bank) (j : Fin 8) (acc : Bank × Nat)
    (h : CarryInvariant a b j.val acc) : CarryInvariant a b (j.val + 1) (addWord a b acc j.rev) := by
  have hlink := congrArg (· * 2 ^ (64 * j.val)) (addWord_link a[j.rev].toNat b[j.rev].toNat acc.2)
  unfold CarryInvariant at *
  rw [addWord, val_mod_set_word, val_mod_succ_word a, val_mod_succ_word b, word_toNat, two_pow_succ_digit]
  linarith

/-- The carry chain over all eight words. -/
def addChain (a b : Bank) : Bank × Nat := upwards.foldl (addWord a b) (utilZero, 0)

theorem utilAdd_eq_addChain (a b : Bank) : utilAdd a b = ((addChain a b).1, BitVec.ofNat 1 (addChain a b).2) := rfl

/-- The chain is exact: the carry out and the digits make up the sum (R156). -/
theorem addChain_value (a b : Bank) : (addChain a b).2 * 2 ^ 512 + val (addChain a b).1 = val a + val b := by
  have hchain : CarryInvariant a b 8 (addChain a b) :=
    foldl_upwards_induction (addWord a b) _ (CarryInvariant a b) (by simp [CarryInvariant, Nat.mod_one])
      (addWord_keeps_carryInvariant a b)
  have hwidth : 64 * 8 = 512 := rfl
  rw [CarryInvariant, val_mod_all_digits, val_mod_all_digits, val_mod_all_digits, hwidth] at hchain
  rw [Nat.add_comm, hchain]

theorem val_add_div_lt_two (a b : Bank) : (val a + val b) / 2 ^ 512 < 2 :=
  Nat.div_lt_of_lt_mul (by have := val_lt a; have := val_lt b; omega)

theorem utilAdd_sum (a b : Bank) : (utilAdd a b).1 = wide ((val a + val b) % 2 ^ 512) := by
  rw [← addChain_value, digit_mod _ _ _ (val_lt _), wide_val, utilAdd_eq_addChain]

theorem utilAdd_carry_toNat (a b : Bank) : (utilAdd a b).2.toNat = (val a + val b) / 2 ^ 512 := by
  have hcarry : (addChain a b).2 = (val a + val b) / 2 ^ 512 := by
    rw [← addChain_value, digit_div _ _ _ (val_lt _)]
  rw [utilAdd_eq_addChain, hcarry, BitVec.toNat_ofNat]
  exact Nat.mod_eq_of_lt (val_add_div_lt_two a b)

/-- The carry-out is 1 exactly when the sum does not fit a bank (R157). -/
theorem utilAdd_carry_eq_one_iff (a b : Bank) : (utilAdd a b).2 = 1 ↔ 2 ^ 512 ≤ val a + val b := by
  have hone : (1 : BitVec 1).toNat = 1 := rfl
  have hlt := val_add_div_lt_two a b
  rw [← BitVec.toNat_inj, utilAdd_carry_toNat, hone, ← Nat.one_le_div_iff (by positivity)]
  omega

/-! ### The borrow chain of `sub` -/

/-- The difference of the low `j` digits: `j` digits and the borrow out of them, at most 1 (R158). -/
def BorrowInvariant (a b : Bank) (j : Nat) (acc : Bank × Nat) : Prop :=
  val acc.1 % 2 ^ (64 * j) + val b % 2 ^ (64 * j) = val a % 2 ^ (64 * j) + acc.2 * 2 ^ (64 * j) ∧ acc.2 ≤ 1

theorem subWord_keeps_borrowInvariant (a b : Bank) (j : Fin 8) (acc : Bank × Nat)
    (h : BorrowInvariant a b j.val acc) : BorrowInvariant a b (j.val + 1) (subWord a b acc j.rev) := by
  obtain ⟨hvalue, hborrow⟩ := h
  have hlink := congrArg (· * 2 ^ (64 * j.val))
    (subWord_link a[j.rev].toNat b[j.rev].toNat acc.2 (BitVec.isLt _) (BitVec.isLt _) hborrow)
  refine ⟨?_, subWord_borrow_le _ _⟩
  rw [subWord, val_mod_set_word, val_mod_succ_word a, val_mod_succ_word b, word_toNat, two_pow_succ_digit]
  linarith

/-- The borrow chain over all eight words. -/
def subChain (a b : Bank) : Bank × Nat := upwards.foldl (subWord a b) (utilZero, 0)

theorem utilSub_eq_subChain (a b : Bank) : utilSub a b = ((subChain a b).1, BitVec.ofNat 1 (subChain a b).2) := rfl

/-- The chain is exact: the digits and the subtrahend make up the minuend and the borrow out (R158). -/
theorem subChain_value (a b : Bank) : val (subChain a b).1 + val b = val a + (subChain a b).2 * 2 ^ 512 := by
  have hchain : BorrowInvariant a b 8 (subChain a b) :=
    foldl_upwards_induction (subWord a b) _ (BorrowInvariant a b) (by simp [BorrowInvariant, Nat.mod_one])
      (subWord_keeps_borrowInvariant a b)
  obtain ⟨hvalue, -⟩ := hchain
  have hwidth : 64 * 8 = 512 := rfl
  rwa [val_mod_all_digits, val_mod_all_digits, val_mod_all_digits, hwidth] at hvalue

/-- The digits and the borrow of an exact difference are those that the chain gives. -/
theorem utilSub_eq (a b : Bank) (d c : Nat) (hd : d < 2 ^ 512) (h : d + val b = val a + c * 2 ^ 512) :
    utilSub a b = (wide d, BitVec.ofNat 1 c) := by
  have hvalue := subChain_value a b
  have hlt := val_lt (subChain a b).1
  have hborrow : (subChain a b).2 = c := by omega
  have hdigits : val (subChain a b).1 = d := by omega
  rw [utilSub_eq_subChain, hborrow, ← hdigits, wide_val]

/-- Settles O49: each chain is exact, which fixes its digits and the carry or borrow out of the last one, since the
digits are below `2^512`. -/
theorem addAndSubReportCarry : Obligations.AddAndSubReportCarry := by
  unfold Obligations.AddAndSubReportCarry
  refine ⟨fun a b => ⟨utilAdd_sum a b, utilAdd_carry_toNat a b⟩, fun a s => ⟨?scalar, ?carry⟩,
    fun a b => ⟨fun hle => ?noBorrow, fun hlt => ?borrow⟩⟩
  case scalar => rw [wide_toNat, utilAddScalar]
  case carry => rw [utilAddScalar, utilAdd_carry_eq_one_iff, val_utilSetScalar]
  case noBorrow =>
    have ha := val_lt a
    exact utilSub_eq a b _ 0 (by omega) (by omega)
  case borrow =>
    have hb := val_lt b
    exact utilSub_eq a b _ 1 (by omega) (by omega)

/-! ### The shift oracles -/

theorem shiftCount_toNat (n : Nat) (h : n ≤ 512) : (BitVec.ofNat 16 n).toNat = n :=
  (BitVec.toNat_ofNat ..).trans (Nat.mod_eq_of_lt (by omega))

theorem val_wide_two_pow (k : Nat) (h : k < 512) : val (wide (2 ^ k)) = 2 ^ k :=
  val_wide _ (pow_lt_pow_right₀ one_lt_two h)

/-- Shifting left until only the low `k` of `n` bits are left, and back, keeps those bits. -/
theorem shiftLeft_mod_shiftRight (v k n : Nat) (h : k ≤ n) :
    ((v <<< (n - k)) % 2 ^ n) >>> (n - k) = v % 2 ^ k := by
  refine Nat.eq_of_testBit_eq fun i => ?_
  simp only [Nat.testBit_shiftRight, Nat.testBit_mod_two_pow, Nat.testBit_shiftLeft, Nat.add_sub_cancel_left,
    Nat.le_add_right, decide_true, Bool.true_and]
  congr 2
  exact propext (by omega)

/-- The low `k` bits of a bank by two shifts by `512 - k` (R163). -/
theorem wide_low_bits_eq_shifts (X : Bank) (k : Nat) (hk : k ≤ 512) :
    wide (val X % 2 ^ k) =
      utilShiftRight (utilShiftLeft X (BitVec.ofNat 16 (512 - k))) (BitVec.ofNat 16 (512 - k)) := by
  rw [utilShiftRight_eq_wide, utilShiftLeft_eq_wide, val_wide_mod, shiftCount_toNat _ (Nat.sub_le _ _),
    shiftLeft_mod_shiftRight _ _ _ hk]

/-- The low `k` bits of a bank, bit by bit (R163). -/
theorem bankBit_wide_low_bits (X : Bank) (k i : Nat) (hi : i < 512) :
    bankBit (wide (val X % 2 ^ k)) i = (decide (i < k) && bankBit X i) := by
  have hlow : val X % 2 ^ k < 2 ^ 512 := (Nat.mod_le _ _).trans_lt (val_lt X)
  rw [bankBit_eq _ i hi, bankBit_eq _ i hi, val_wide _ hlow, Nat.testBit_mod_two_pow]

/-- Settles O21: for the multiply, the power-of-two row of `multiplyLaws`; for the divide, the quotient by `2^k` is the
right shift and the remainder is the low `k` bits. -/
theorem shiftOraclesAgree : Obligations.ShiftOraclesAgree := by
  unfold Obligations.ShiftOraclesAgree
  intro s k hk hopb
  constructor
  · obtain ⟨t, hexec, -, -, -, hpower, -⟩ := multiplyLaws s
    exact ⟨t, hexec, hpower k hk hopb⟩
  · have hresults : divideResults (val s.opa) (val s.opb) = ⟨val s.opa >>> k, val s.opa % 2 ^ k, stOk⟩ := by
      rw [hopb, val_wide_two_pow k hk, divideResults_two_pow]
    refine ⟨_, exec_divw s _ hresults, ?_, wide_low_bits_eq_shifts s.opa k hk.le, bankBit_wide_low_bits s.opa k⟩
    rw [commitWide_rlo, utilShiftRight_eq_wide, shiftCount_toNat k hk.le]

end Sys2Proof.Machine

/-! PROOFS. Which events change which registers (spec/70_reset_and_hazards.md R207): a command changes only results
that it owns, and every other event but reset changes at most the operand register that it writes. -/

namespace Sys2Proof.Machine

/-- The frame of a command read backwards: a changed RHI or RS tells the width of the command (R34). -/
theorem exec_changes_only_owned (i : Instr) (s t : State) (h : exec i s = .next t) :
    t.opa = s.opa ∧ t.opb = s.opb ∧ t.ops = s.ops ∧
      (t.rhi ≠ s.rhi → i = .mulw ∨ i = .divw) ∧ (t.rs ≠ s.rs → i = .muls ∨ i = .divs) := by
  obtain ⟨u, hexec, hopa, hopb, hops, hwide, hscalar, -, -⟩ := commandWritesOnlyItsResults i s
  obtain rfl := Host.Outcome.next.inj (h.symm.trans hexec)
  refine ⟨hopa, hopb, hops, ?_⟩
  cases hi : i.isScalar with
  | false =>
    have howner := (isScalar_eq_false_iff i).mp hi
    exact ⟨fun _ => howner, fun hrs => absurd (hwide howner) hrs⟩
  | true =>
    have howner := (isScalar_eq_true_iff i).mp hi
    exact ⟨fun hrhi => absurd (hscalar howner) hrhi, fun _ => howner⟩

/-- Settles O35: by what an event can do. A store names the one operand register that it changes, a command word is
`encode` of its command, whose changes are owned ones, and the other events keep every register. -/
theorem onlyOwnersChangeRegisters : Obligations.OnlyOwnersChangeRegisters := by
  unfold Obligations.OnlyOwnersChangeRegisters
  intro e s t h hreset
  obtain ⟨off, rfl, rfl⟩ | ⟨rfl, -⟩ | ⟨i, v, rfl, rfl⟩ | ⟨i, v, rfl, rfl⟩ | ⟨v, rfl, rfl⟩ |
    ⟨v, i, rfl, hdecode, hexec⟩ | ⟨off, v, rfl, -, rfl⟩ := perform_cases e s t h
  · simp
  · exact absurd rfl hreset
  · exact ⟨fun _ => ⟨i, v, rfl⟩, by simp⟩
  · exact ⟨by simp, fun _ => ⟨i, v, rfl⟩, by simp⟩
  · exact ⟨by simp, by simp, fun _ => ⟨v, rfl⟩, by simp⟩
  · obtain rfl := (decode_eq_ok_iff v i).mp hdecode
    obtain ⟨hopa, hopb, hops, hrhi, hrs⟩ := exec_changes_only_owned i s t hexec
    exact ⟨absurd hopa, absurd hopb, absurd hops, fun _ => ⟨i, rfl⟩,
      fun hne => (hrhi hne).imp (by rintro rfl; rfl) (by rintro rfl; rfl),
      fun hne => (hrs hne).imp (by rintro rfl; rfl) (by rintro rfl; rfl)⟩
  · simp

end Sys2Proof.Machine

/-! PROOFS. Decoding (spec/30_encoding.md sections 1 and 3) and the steps that run a decoded command
(spec/10_state.md section 4). -/

namespace Sys2Proof.Machine

/-- Settles O2: `decode` inverts `encode`, and a word that decodes is below 4, so it is some command's encoding. -/
theorem decodeInvertsEncode : Obligations.DecodeInvertsEncode := by
  unfold Obligations.DecodeInvertsEncode
  exact decode_eq_ok_iff

/-- Settles O1: the four words are the four commands' encodings. -/
theorem commandWordsDecode : Obligations.CommandWordsDecode := by
  unfold Obligations.CommandWordsDecode
  exact ⟨decode_encode .mulw, decode_encode .muls, decode_encode .divw, decode_encode .divs⟩

/-- A CMD write of a word that decodes runs the command, whole (R80, R205). -/
theorem perform_command (v : Word) (i : Instr) (s : State) (h : decode v = .ok i) :
    perform (.write Reg.cmd.offset v) s = exec i s := by
  obtain rfl := (decode_eq_ok_iff v i).mp h
  exact hostWrite_encode i s

/-- Settles O5: the step performs the CMD write, which runs the command. -/
theorem stepRunsTheDecodedCommand : Obligations.StepRunsTheDecodedCommand := by
  unfold Obligations.StepRunsTheDecodedCommand
  intro s v es i hpending hdecode
  rw [step_event s _ es hpending]
  exact perform_command v i (withPending es s) hdecode

/-- The table's command is the decoder's, and its bits are all inside the width. -/
theorem decode_of_decodeTableWord (nbits w : Nat) (i : Instr) (h : decodeTableWord nbits w = some i) :
    w < 2 ^ nbits ∧ decode (word w) = .ok i := by
  unfold decodeTableWord at h
  split at h
  · next hwidth =>
    cases hdecode : decode (BitVec.ofNat 64 w) with
    | ok j =>
      simp only [hdecode, Option.some.injEq] at h
      subst h
      exact ⟨hwidth.1, hdecode⟩
    | error _ => simp [hdecode] at h
  · cases h

/-- Settles O6: the placed word is the next event, and taking it off again leaves the state as it was. -/
theorem placedCommandRunsNext : Obligations.PlacedCommandRunsNext := by
  unfold Obligations.PlacedCommandRunsNext
  intro s nbits w i h
  obtain ⟨hwidth, hdecode⟩ := decode_of_decodeTableWord nbits w i h
  rw [State.withFetchWord, Nat.mod_eq_of_lt hwidth, withNextCommand, step_event _ _ s.pending (withPending_pending _ s)]
  exact perform_command (word w) i s hdecode

end Sys2Proof.Machine

/-! PROOFS. Which events complete and how steps serve them (spec/60_exceptions.md R183, spec/20_memory.md R62,
spec/70_reset_and_hazards.md section 3). -/

namespace Sys2Proof.Machine

/-! ### Lawful events complete -/

/-- The host's duty on a CMD write is that the word is a command word (R84). -/
theorem lawful_write_cmd_iff (v : Word) : (Event.write Reg.cmd.offset v).lawful = true ↔ v.toNat < 4 := by
  simp [Event.lawful, wellFormedCommandWord_iff]

/-- Settles O42: only a CMD write can be refused, and a lawful one holds a command's word, which completes. -/
theorem lawfulEventsComplete : Obligations.LawfulEventsComplete := by
  unfold Obligations.LawfulEventsComplete
  intro e s hlawful
  cases e with
  | read off => exact ⟨_, perform_read off s⟩
  | reset => exact ⟨_, rfl⟩
  | write off v =>
    obtain ⟨_, -, hwrite⟩ | ⟨_, -, hwrite⟩ | ⟨-, hwrite⟩ | ⟨rfl, -⟩ | ⟨-, hwrite⟩ := hostWrite_cases off v s
    · exact ⟨_, hwrite⟩
    · exact ⟨_, hwrite⟩
    · exact ⟨_, hwrite⟩
    · obtain ⟨i, rfl⟩ := exists_encode_of_lt_four v ((lawful_write_cmd_iff v).mp hlawful)
      rw [perform_command _ i s (decode_encode i)]
      exact exec_completes i s
    · exact ⟨_, hwrite⟩

/-- An event that breaks the host's duty is refused, in every state. -/
theorem perform_unlawful (e : Event) (s : State) (h : ¬ e.lawful = true) :
    perform e s = .refused .reservedCommandBits := by
  cases e with
  | read off => exact absurd rfl h
  | reset => exact absurd rfl h
  | write off v =>
    by_cases hcmd : off = Reg.cmd.offset
    · subst hcmd
      rw [lawful_write_cmd_iff] at h
      exact (hostWrite_cmd v s).trans (execute_reserved v (by omega) s)
    · simp [Event.lawful, hcmd] at h

/-- A run that completes has a first event that completes. -/
theorem performAll_cons_next (e : Event) (es : List Event) (s t : State) (h : performAll (e :: es) s = .next t) :
    ∃ u, perform e s = .next u ∧ performAll es u = .next t := by
  by_cases hlawful : e.lawful = true
  · obtain ⟨u, hu⟩ := lawfulEventsComplete e s hlawful
    exact ⟨u, hu, (performAll_cons e es s u hu).symm.trans h⟩
  · rw [performAll_refused e es s _ (perform_unlawful e s hlawful)] at h
    cases h

/-! ### Events and the state they run on -/

/-- A write is ignored in every state where it is ignored in one (R36, R58). -/
theorem hostWrite_of_ignoresWrites (off : Offset) (v : Word) (s : State) (h : IgnoresWrites off) :
    hostWrite off v s = .next s := by
  obtain ⟨hopa, hopb, hops, hcmd⟩ := h
  obtain ⟨i, hoff, -⟩ | ⟨i, hoff, -⟩ | ⟨hoff, -⟩ | ⟨hoff, -⟩ | ⟨-, hwrite⟩ := hostWrite_cases off v s
  · exact absurd hoff (hopa i)
  · exact absurd hoff (hopb i)
  · exact absurd hoff hops
  · exact absurd hoff hcmd
  · exact hwrite

theorem exec_pending (i : Instr) (s t : State) (h : exec i s = .next t) : t.pending = s.pending := by
  obtain ⟨u, hexec, -, -, -, -, -, hpending, -⟩ := commandWritesOnlyItsResults i s
  obtain rfl := Host.Outcome.next.inj (h.symm.trans hexec)
  exact hpending

/-- No event changes which events are still to come. -/
theorem perform_pending (e : Event) (s t : State) (h : perform e s = .next t) : t.pending = s.pending := by
  obtain ⟨_, -, rfl⟩ | ⟨-, rfl⟩ | ⟨_, _, -, rfl⟩ | ⟨_, _, -, rfl⟩ | ⟨_, -, rfl⟩ | ⟨_, i, -, -, hexec⟩ |
    ⟨_, _, -, -, rfl⟩ := perform_cases e s t h
  · rfl
  · rfl
  · rfl
  · rfl
  · rfl
  · exact exec_pending i s t hexec
  · rfl

/-- Engines with the same registers differ in the outside fields alone. -/
theorem eq_of_sameRegisters (s u : State) (h : s.sameRegisters u) :
    u = { s with pending := u.pending, answers := u.answers } :=
  (state_ext { s with pending := u.pending, answers := u.answers } u h rfl rfl).symm

/-- A command completes alike on engines with the same registers (R33, R37). -/
theorem exec_of_sameRegisters (i : Instr) (s t u : State) (h : exec i s = .next t) (hsame : s.sameRegisters u) :
    ∃ w, exec i u = .next w ∧ t.sameRegisters w ∧ t.answers = s.answers ∧ w.answers = u.answers := by
  rw [eq_of_sameRegisters s u hsame]
  cases hi : i.isScalar with
  | false =>
    obtain ⟨first, second, st, hexec⟩ := exec_commits_of_wideOperands i hi (firstOperand s) (wideOperand s)
    obtain rfl := Host.Outcome.next.inj ((hexec s rfl rfl).symm.trans h)
    exact ⟨_, hexec _ rfl rfl, sameRegisters_refl _, rfl, rfl⟩
  | true =>
    obtain ⟨first, second, st, hexec⟩ := exec_commits_of_scalarOperands i hi (firstOperand s) (scalarOperand s)
    obtain rfl := Host.Outcome.next.inj ((hexec s rfl rfl).symm.trans h)
    exact ⟨_, hexec _ rfl rfl, sameRegisters_refl _, rfl, rfl⟩

/-- An event does the same to engines with the same registers, and returns the same values (R33, R37). -/
theorem perform_of_sameRegisters (e : Event) (s t u : State) (h : perform e s = .next t) (hsame : s.sameRegisters u) :
    ∃ w out, perform e u = .next w ∧ t.sameRegisters w ∧ t.answers = s.answers ++ out ∧
      w.answers = u.answers ++ out := by
  have hu := eq_of_sameRegisters s u hsame
  obtain ⟨off, rfl, rfl⟩ | ⟨rfl, rfl⟩ | ⟨i, v, rfl, rfl⟩ | ⟨i, v, rfl, rfl⟩ | ⟨v, rfl, rfl⟩ |
    ⟨v, i, rfl, hdecode, hexec⟩ | ⟨off, v, rfl, hignores, rfl⟩ := perform_cases e s t h
  · refine ⟨_, [hostRead off s], perform_read off u, hsame, rfl, ?_⟩
    rw [hostRead_of_sameRegisters s u hsame, answer_answers]
  · exact ⟨resetRegisters u, [], rfl, sameRegisters_refl _, by simp, by simp⟩
  · rw [hu]
    exact ⟨_, [], hostWrite_opa i v _, sameRegisters_refl _, by simp, by simp⟩
  · rw [hu]
    exact ⟨_, [], hostWrite_opb i v _, sameRegisters_refl _, by simp, by simp⟩
  · rw [hu]
    exact ⟨_, [], hostWrite_ops v _, sameRegisters_refl _, by simp, by simp⟩
  · obtain ⟨w, hw, htw, ht, hwu⟩ := exec_of_sameRegisters i s t u hexec hsame
    exact ⟨w, [], (perform_command v i u hdecode).trans hw, htw, by simp [ht], by simp [hwu]⟩
  · exact ⟨u, [], hostWrite_of_ignoresWrites off v u hignores, hsame, by simp, by simp⟩

/-- Settles O46: one event after another does the same to both engines, and their answers grow alike. -/
theorem noHiddenState : Obligations.NoHiddenState := by
  unfold Obligations.NoHiddenState
  intro es
  induction es with
  | nil =>
    intro s u t hsame h
    obtain rfl := Host.Outcome.next.inj h
    exact ⟨u, [], performAll_nil u, hsame, by simp, by simp⟩
  | cons e es ih =>
    intro s u t hsame h
    obtain ⟨s', hs', hrest⟩ := performAll_cons_next e es s t h
    obtain ⟨u', out, hu', hsame', hsout, huout⟩ := perform_of_sameRegisters e s s' u hs' hsame
    obtain ⟨w, outs, hw, htw, htouts, hwouts⟩ := ih s' u' t hsame' hrest
    refine ⟨w, out ++ outs, (performAll_cons e es u u' hu').trans hw, htw, ?_, ?_⟩
    · rw [htouts, hsout, List.append_assoc]
    · rw [hwouts, huout, List.append_assoc]

/-! ### Steps -/

/-- An event does not depend on the events after it. -/
theorem perform_withPending (e : Event) (es : List Event) (s t : State) (h : perform e s = .next t) :
    perform e (withPending es s) = .next (withPending es t) := by
  obtain ⟨w, out, hw, htw, ht, hwout⟩ := perform_of_sameRegisters e s t (withPending es s) h (sameRegisters_refl s)
  have hpending : es = w.pending := (perform_pending e (withPending es s) w hw).symm
  rw [hw, state_ext (withPending es t) w htw hpending (ht.trans hwout.symm)]

/-- Settles O41: a step performs the first event, which leaves the events after it pending, and is refused where that
event is. -/
theorem stepsPerformEventsInOrder : Obligations.StepsPerformEventsInOrder := by
  suffices h : ∀ (es : List Event) (s : State), runSteps es.length (withPending es s) = performAll es (withPending [] s)
    from fun s => h s.pending s
  intro es
  induction es with
  | nil => exact fun s => rfl
  | cons e es ih =>
    intro s
    have hstep : step (withPending (e :: es) s) = perform e (withPending es s) := step_event _ e es rfl
    by_cases hlawful : e.lawful = true
    · obtain ⟨t, ht⟩ := lawfulEventsComplete e s hlawful
      rw [List.length_cons, runSteps_succ _ _ _ (hstep.trans (perform_withPending e es s t ht)), ih t,
        performAll_cons e es _ _ (perform_withPending e [] s t ht)]
    · rw [List.length_cons, runSteps_refused _ _ _ (hstep.trans (perform_unlawful e _ hlawful)),
        performAll_refused e es _ _ (perform_unlawful e _ hlawful)]

/-- A step of an engine whose host keeps its duty serves the first pending event, if there is one. -/
theorem step_lawful (s : State) (h : s.lawful = true) :
    ∃ t, step s = .next t ∧ t.pending = s.pending.tail ∧ t.lawful = true := by
  unfold State.lawful at *
  cases hpending : s.pending with
  | nil => exact ⟨s, step_idle s hpending, hpending, h⟩
  | cons e es =>
    rw [hpending, List.all_cons, Bool.and_eq_true] at h
    obtain ⟨hlawful, hrest⟩ := h
    obtain ⟨t, ht⟩ := lawfulEventsComplete e (withPending es s) hlawful
    have hserved : t.pending = es := perform_pending e _ t ht
    exact ⟨t, (step_event s e es hpending).trans ht, hserved, hserved ▸ hrest⟩

/-- Settles O43: by induction on the number of steps, each of which serves one event or, with none left, nothing. -/
theorem lawfulRunNeverStops : Obligations.LawfulRunNeverStops := by
  unfold Obligations.LawfulRunNeverStops
  intro s k
  induction k generalizing s with
  | zero => exact fun h => ⟨s, runSteps_zero s, rfl, h⟩
  | succ k ih =>
    intro h
    obtain ⟨u, hstep, hserved, hlawful⟩ := step_lawful s h
    obtain ⟨t, hrun, hpending, ht⟩ := ih u hlawful
    refine ⟨t, (runSteps_succ k s u hstep).trans hrun, ?_, ht⟩
    rw [hpending, hserved, List.drop_tail]

/-! ### The step that is idle, and the one that resets -/

/-- Settles O31: no event is pending at reset, and with none pending a step is idle. -/
theorem idleEngineDoesNothing : Obligations.IdleEngineDoesNothing := by
  unfold Obligations.IdleEngineDoesNothing
  exact ⟨step_idle State.reset rfl, step_idle⟩

/-- Settles O29: the reset banks are the bank of 0, and a step that serves Reset sets every register to its value. -/
theorem resetClearsEveryWord : Obligations.ResetClearsEveryWord := by
  unfold Obligations.ResetClearsEveryWord
  constructor
  · decide
  · intro s es hpending
    exact ⟨resetRegisters (withPending es s), step_event s .reset es hpending, sameRegisters_refl _, rfl, rfl⟩

/-- Settles O30: every operand is zero after reset, so the products are 0 and the divides are by zero. -/
theorem commandsStraightAfterReset : Obligations.CommandsStraightAfterReset := by
  unfold Obligations.CommandsStraightAfterReset
  have hopa : val State.reset.opa = 0 := rfl
  refine ⟨?_, ?_, execDivw_zero State.reset rfl, execDivs_zero State.reset rfl⟩
  · rw [exec_mulw, hopa, Nat.zero_mul, Nat.zero_mod, Nat.zero_div]
    rfl
  · rw [exec_muls, hopa, Nat.zero_mul, Nat.zero_mod, Nat.zero_div]
    rfl

end Sys2Proof.Machine

/-! PROOFS. The invariant on STATUS (spec/10_state.md R29, spec/42_divide.md R123): only commands and resets change
what it speaks of, and each of these establishes it. -/

namespace Sys2Proof.Machine

/-- An event that is no command and no reset keeps the results and STATUS (R207). -/
theorem statusTruthful_of_results_eq (s t : State) (hrlo : t.rlo = s.rlo) (hrhi : t.rhi = s.rhi) (hrs : t.rs = s.rs)
    (hstatus : t.status = s.status) (h : s.statusTruthful) : t.statusTruthful := by
  rwa [State.statusTruthful, hrlo, hrhi, hrs, hstatus]

/-- A success claims nothing of the results. -/
theorem statusTruthful_of_stOk (s : State) (h : s.status = stOk) : s.statusTruthful := by
  rw [State.statusTruthful, h]
  exact ⟨rfl, fun hdbz => absurd hdbz (by decide)⟩

/-- Settles O45: STATUS is `ST_OK` at reset. -/
theorem resetStatusIsTruthful : Obligations.ResetStatusIsTruthful := by
  unfold Obligations.ResetStatusIsTruthful
  exact statusTruthful_of_stOk State.reset rfl

/-- Every command leaves a true STATUS, whatever it was before (R188). -/
theorem exec_statusTruthful (i : Instr) (s t : State) (h : exec i s = .next t) : t.statusTruthful := by
  obtain ⟨_, _, hexec⟩ | ⟨_, _, hexec⟩ | hexec | hexec := exec_cases i s
  all_goals obtain rfl := Host.Outcome.next.inj (hexec.symm.trans h)
  · exact statusTruthful_of_stOk _ rfl
  · exact statusTruthful_of_stOk _ rfl
  · exact ⟨rfl, fun _ => ⟨rfl, .inl rfl⟩⟩
  · exact ⟨rfl, fun _ => ⟨rfl, .inr rfl⟩⟩

theorem perform_keeps_statusTruthful (e : Event) (s t : State) (hs : s.statusTruthful) (h : perform e s = .next t) :
    t.statusTruthful := by
  obtain ⟨_, -, rfl⟩ | ⟨-, rfl⟩ | ⟨_, _, -, rfl⟩ | ⟨_, _, -, rfl⟩ | ⟨_, -, rfl⟩ | ⟨_, i, -, -, hexec⟩ |
    ⟨_, _, -, -, rfl⟩ := perform_cases e s t h
  · exact statusTruthful_of_results_eq s _ rfl rfl rfl rfl hs
  · exact statusTruthful_of_stOk _ rfl
  · exact statusTruthful_of_results_eq s _ rfl rfl rfl rfl hs
  · exact statusTruthful_of_results_eq s _ rfl rfl rfl rfl hs
  · exact statusTruthful_of_results_eq s _ rfl rfl rfl rfl hs
  · exact exec_statusTruthful i s t hexec
  · exact hs

/-- Settles O44: an idle step changes nothing, and every other step performs an event, which keeps the invariant. -/
theorem stepKeepsStatusTruthful : Obligations.StepKeepsStatusTruthful := by
  unfold Obligations.StepKeepsStatusTruthful
  intro s t hs h
  cases hpending : s.pending with
  | nil =>
    obtain rfl := Host.Outcome.next.inj ((step_idle s hpending).symm.trans h)
    exact hs
  | cons e es =>
    exact perform_keeps_statusTruthful e (withPending es s) t hs ((step_event s e es hpending).symm.trans h)

end Sys2Proof.Machine

/-! PROOFS. Commands and writes seen through the window (spec/10_state.md section 5, spec/20_memory.md section 3), and
what persists across runs of events (spec/70_reset_and_hazards.md section 3). -/

namespace Sys2Proof.Machine

/-! ### Slots -/

/-- A slot is a register's or reserved (R51). -/
theorem register_or_reserved (off : Offset) : (∃ r : Reg, off = r.offset) ∨ regAt off = none := by
  cases hr : regAt off with
  | some r => exact .inl ⟨r, (offset_of_regAt off r hr).symm⟩
  | none => exact .inr rfl

/-- A reserved slot reads as 0 in every state (R57). -/
theorem hostRead_of_regAt_none (off : Offset) (s : State) (h : regAt off = none) : hostRead off s = 0 := by
  simp [hostRead, h]

theorem offset_inj (r r' : Reg) : r.offset = r'.offset ↔ r = r' := by
  refine ⟨fun h => ?_, congrArg Reg.offset⟩
  have hr := congrArg regAt h
  rwa [regAt_offset, regAt_offset, Option.some_inj] at hr

/-- The slots up to 0x0F are those of the operand banks (R51). -/
theorem operand_offset_of_le (off : Offset) (h : off.toNat ≤ 0x0F) :
    (∃ i, off = (Reg.opa i).offset) ∨ ∃ i, off = (Reg.opb i).offset := by
  revert off
  decide

/-! ### Commands -/

/-- Settles O26: a slot is reserved or a register's, and a command keeps each register that it does not own. -/
theorem commandLeavesOtherSlots : Obligations.CommandLeavesOtherSlots := by
  unfold Obligations.CommandLeavesOtherSlots
  intro i s t off hexec hrlo hstatus hrhi hrs
  obtain ⟨hopa, hopb, hops, hrhiOwner, hrsOwner⟩ := exec_changes_only_owned i s t hexec
  obtain ⟨r, rfl⟩ | hreserved := register_or_reserved off
  · rw [hostRead_offset, hostRead_offset]
    cases r with
    | opa j => rw [readReg, hopa, readReg]
    | opb j => rw [readReg, hopb, readReg]
    | ops => exact hops
    | cmd => rfl
    | status => exact absurd rfl hstatus
    | rlo j =>
      rw [rlo_offset_toNat] at hrlo
      omega
    | rhi j =>
      have hkept : t.rhi = s.rhi := by
        by_contra hne
        have howned := hrhi (hrhiOwner hne)
        rw [rhi_offset_toNat] at howned
        omega
      rw [readReg, hkept, readReg]
    | rs =>
      have hkept : t.rs = s.rs := by
        by_contra hne
        exact hrs (hrsOwner hne) rfl
      exact hkept
  · rw [hostRead_of_regAt_none off t hreserved, hostRead_of_regAt_none off s hreserved]

/-- The command divides by zero: DIVW with every word of OPB zero, DIVS with OPS zero (R181). -/
def DividesByZero (i : Instr) (s : State) : Prop :=
  (i = .divw ∧ ∀ k : Fin 8, s.opb[k] = 0) ∨ (i = .divs ∧ s.ops = 0)

/-- Every execution but a divide by zero succeeds (R181). -/
theorem exec_stOk (i : Instr) (s : State) (h : ¬ DividesByZero i s) :
    ∃ t, exec i s = .next t ∧ t.status = stOk := by
  cases i with
  | mulw => exact ⟨_, execMulw_eq s, rfl⟩
  | muls => exact ⟨_, execMuls_eq s, rfl⟩
  | divw =>
    have hd : wideOperand s ≠ 0 := fun hzero => h (.inl ⟨rfl, (val_eq_zero_iff s.opb).mp hzero⟩)
    exact ⟨_, execDivw_nonzero s hd, rfl⟩
  | divs =>
    have hd : scalarOperand s ≠ 0 := fun hzero => h (.inr ⟨rfl, BitVec.eq_of_toNat_eq hzero⟩)
    exact ⟨_, execDivs_nonzero s hd, rfl⟩

/-- Settles O27: a divide by zero commits zeros with `ST_DBZ`, every other execution succeeds, and the two values of
STATUS differ. -/
theorem statusTellsDivideByZero : Obligations.StatusTellsDivideByZero := by
  unfold Obligations.StatusTellsDivideByZero
  refine ⟨rfl, rfl, fun i s => ?_⟩
  have hne : stOk ≠ stDbz := by decide
  change ∃ t, exec i s = .next t ∧ (t.status = stDbz ↔ DividesByZero i s) ∧ (t.status = stOk ↔ ¬ DividesByZero i s) ∧ _
  by_cases hzero : DividesByZero i s
  · simp only [hzero, iff_true, not_true_eq_false, iff_false]
    obtain ⟨rfl, hd⟩ | ⟨rfl, hd⟩ := hzero
    · refine ⟨divideByZeroWide s, execDivw_zero s ((val_eq_zero_iff s.opb).mpr hd), ?_⟩
      simp [hne.symm]
    · refine ⟨divideByZeroScalar s, execDivs_zero s (congrArg BitVec.toNat hd), ?_⟩
      simp [hne.symm, word]
  · obtain ⟨t, hexec, hstatus⟩ := exec_stOk i s hzero
    obtain ⟨hopa, hopb, hops, -, -⟩ := exec_changes_only_owned i s t hexec
    refine ⟨t, hexec, ?_⟩
    simp [hzero, hstatus, hne, hopa, hopb, hops]

/-! ### Writes -/

/-- After a store in register `r`, the slot of `r` reads as the value stored and every other slot as before. -/
theorem hostRead_of_store (r : Reg) (v : Word) (s t : State)
    (h : ∀ r', readReg t r' = if r' = r then v else readReg s r') (off : Offset) :
    hostRead off t = if off = r.offset then v else hostRead off s := by
  obtain ⟨r', rfl⟩ | hreserved := register_or_reserved off
  · simp only [hostRead_offset, offset_inj, h]
  · have hoff : off ≠ r.offset := by
      rintro rfl
      simp at hreserved
    rw [if_neg hoff, hostRead_of_regAt_none off t hreserved, hostRead_of_regAt_none off s hreserved]

theorem readReg_storeOpa (i : Fin 8) (v : Word) (s : State) (r : Reg) :
    readReg (storeOpa i v s) r = if r = .opa i then v else readReg s r := by
  cases r with
  | opa j => simp [readReg, Vector.getElem_set, Fin.ext_iff, eq_comm]
  | _ => rfl

theorem readReg_storeOpb (i : Fin 8) (v : Word) (s : State) (r : Reg) :
    readReg (storeOpb i v s) r = if r = .opb i then v else readReg s r := by
  cases r with
  | opb j => simp [readReg, Vector.getElem_set, Fin.ext_iff, eq_comm]
  | _ => rfl

theorem readReg_storeOps (v : Word) (s : State) (r : Reg) :
    readReg (storeOps v s) r = if r = .ops then v else readReg s r := by
  cases r <;> rfl

/-- Settles O34: a store changes its own slot, which is an operand register's, and an ignored write changes none. -/
theorem hostWriteTouchesOneSlot : Obligations.HostWriteTouchesOneSlot := by
  unfold Obligations.HostWriteTouchesOneSlot
  intro s off v hcmd
  obtain ⟨i, rfl, hwrite⟩ | ⟨i, rfl, hwrite⟩ | ⟨rfl, hwrite⟩ | ⟨rfl, -⟩ | ⟨hignores, hwrite⟩ := hostWrite_cases off v s
  · have hread := hostRead_of_store (.opa i) v s _ (readReg_storeOpa i v s)
    refine ⟨_, hwrite, ?_, fun other hother => (hread other).trans (if_neg hother), rfl, rfl⟩
    rw [hread, if_pos rfl, if_pos (.inl (by rw [opa_offset_toNat]; omega))]
  · have hread := hostRead_of_store (.opb i) v s _ (readReg_storeOpb i v s)
    refine ⟨_, hwrite, ?_, fun other hother => (hread other).trans (if_neg hother), rfl, rfl⟩
    rw [hread, if_pos rfl, if_pos (.inl (by rw [opb_offset_toNat]; omega))]
  · have hread := hostRead_of_store .ops v s _ (readReg_storeOps v s)
    refine ⟨_, hwrite, ?_, fun other hother => (hread other).trans (if_neg hother), rfl, rfl⟩
    rw [hread, if_pos rfl, if_pos (.inr rfl)]
  · exact absurd rfl hcmd
  · obtain ⟨hopa, hopb, hops, -⟩ := hignores
    have hoperand : ¬ (off.toNat ≤ 0x0F ∨ off = 0x20#6) := by
      rintro (hle | hoff)
      · obtain ⟨i, hoff⟩ | ⟨i, hoff⟩ := operand_offset_of_le off hle
        · exact hopa i hoff
        · exact hopb i hoff
      · exact hops hoff
    exact ⟨s, hwrite, (if_neg hoperand).symm, fun _ _ => rfl, rfl, rfl⟩

/-! ### Runs -/

/-- What each event of a run completes and keeps, the run completes and keeps. -/
theorem performAll_keeps {α : Type} (f : State → α) (es : List Event)
    (h : ∀ e ∈ es, ∀ s, ∃ t, perform e s = .next t ∧ f t = f s) (s : State) :
    ∃ t, performAll es s = .next t ∧ f t = f s := by
  induction es generalizing s with
  | nil => exact ⟨s, rfl, rfl⟩
  | cons e es ih =>
    rw [List.forall_mem_cons] at h
    obtain ⟨he, hes⟩ := h
    obtain ⟨u, hu, hfu⟩ := he s
    obtain ⟨t, ht, hft⟩ := ih hes u
    exact ⟨t, (performAll_cons e es s u hu).trans ht, hft.trans hfu⟩

/-- The registers that commands write. -/
def State.results (s : State) : Bank × Bank × Word × Word := (s.rlo, s.rhi, s.rs, s.status)

/-- The registers that commands read. -/
def State.operands (s : State) : Bank × Bank × Word := (s.opa, s.opb, s.ops)

/-- A quiet event owes nothing (R84). -/
theorem lawful_of_quiet (e : Event) (h : e.quiet = true) : e.lawful = true := by
  cases e with
  | read off => rfl
  | reset => rfl
  | write off v => exact Bool.or_eq_true_iff.mpr (.inl h)

/-- Only a command or a reset writes a result register, and a quiet event is neither (R207). -/
theorem perform_quiet_keeps_results (e : Event) (h : e.quiet = true) (s : State) :
    ∃ t, perform e s = .next t ∧ t.results = s.results := by
  obtain ⟨t, ht⟩ := lawfulEventsComplete e s (lawful_of_quiet e h)
  refine ⟨t, ht, ?_⟩
  obtain ⟨_, -, rfl⟩ | ⟨rfl, -⟩ | ⟨_, _, -, rfl⟩ | ⟨_, _, -, rfl⟩ | ⟨_, -, rfl⟩ | ⟨_, _, rfl, -, -⟩ |
    ⟨_, _, -, -, rfl⟩ := perform_cases e s t ht
  · rfl
  · cases h
  · rfl
  · rfl
  · rfl
  · cases h
  · rfl

/-- Only a store or a reset writes an operand register, and a command keeps all three (R207, R34). -/
theorem perform_keeps_operands (e : Event) (h : e.keepsOperands = true) (hlawful : e.lawful = true) (s : State) :
    ∃ t, perform e s = .next t ∧ t.operands = s.operands := by
  obtain ⟨t, ht⟩ := lawfulEventsComplete e s hlawful
  refine ⟨t, ht, ?_⟩
  obtain ⟨_, -, rfl⟩ | ⟨rfl, -⟩ | ⟨i, _, rfl, -⟩ | ⟨i, _, rfl, -⟩ | ⟨_, rfl, -⟩ | ⟨_, i, -, -, hexec⟩ |
    ⟨_, _, -, -, rfl⟩ := perform_cases e s t ht
  · rfl
  · cases h
  · simp [Event.keepsOperands] at h
  · simp [Event.keepsOperands] at h
  · cases h
  · obtain ⟨hopa, hopb, hops, -, -⟩ := exec_changes_only_owned i s t hexec
    rw [State.operands, hopa, hopb, hops, State.operands]
  · rfl

/-- Settles O36: each quiet event keeps the results. -/
theorem resultsPersistWithoutCommands : Obligations.ResultsPersistWithoutCommands := by
  unfold Obligations.ResultsPersistWithoutCommands
  intro es s hquiet
  rw [List.all_eq_true] at hquiet
  obtain ⟨t, hrun, hkept⟩ :=
    performAll_keeps State.results es (fun e he => perform_quiet_keeps_results e (hquiet e he)) s
  simp only [State.results, Prod.mk.injEq] at hkept
  exact ⟨t, hrun, hkept⟩

/-- Settles O37: each of the events keeps the operands. -/
theorem operandsPersistAcrossCommands : Obligations.OperandsPersistAcrossCommands := by
  unfold Obligations.OperandsPersistAcrossCommands
  intro es s hkeeps hlawful
  rw [List.all_eq_true] at hkeeps hlawful
  obtain ⟨t, hrun, hkept⟩ :=
    performAll_keeps State.operands es (fun e he => perform_keeps_operands e (hkeeps e he) (hlawful e he)) s
  simp only [State.operands, Prod.mk.injEq] at hkept
  exact ⟨t, hrun, hkept⟩

end Sys2Proof.Machine

/-! PROOFS. Loading, reading and moving banks word by word (spec/30_encoding.md R87), and commands between the writes of
a load (spec/70_reset_and_hazards.md R206). -/

namespace Sys2Proof.Machine

/-! ### Banks overwritten in part -/

/-- Bank `A` after the words of `X` at the listed indices have been stored in it. -/
def overwrite (X A : Bank) (order : List (Fin 8)) : Bank := order.foldl (fun U (i : Fin 8) => U.set i X[i]) A

theorem overwrite_cons (X A : Bank) (i : Fin 8) (order : List (Fin 8)) :
    overwrite X A (i :: order) = overwrite X (A.set i X[i]) order := rfl

/-- A listed word is new and every other word is old. -/
theorem overwrite_get (X A : Bank) (order : List (Fin 8)) (j : Fin 8) :
    (overwrite X A order)[j] = if j ∈ order then X[j] else A[j] := by
  induction order generalizing A with
  | nil => rfl
  | cons i order ih =>
    rw [overwrite_cons, ih]
    by_cases hj : j ∈ order
    · simp [hj]
    · by_cases hij : j = i
      · subst hij
        simp [hj]
      · have hval : i.val ≠ j.val := fun h => hij (Fin.ext h.symm)
        simp [hj, hij, Vector.getElem_set_ne _ _ hval]

/-- All eight indices, in any order, leave nothing of the old bank. -/
theorem overwrite_perm (X A : Bank) (order : List (Fin 8)) (h : order.Perm indexOrder) : overwrite X A order = X := by
  refine Vector.ext fun k hk => ?_
  have hmem : (⟨k, hk⟩ : Fin 8) ∈ order := h.mem_iff.mpr (by revert k; decide)
  exact (overwrite_get X A order ⟨k, hk⟩).trans (if_pos hmem)

/-! ### Loads -/

/-- The engine with `U` in an operand bank; the host can load no other (R87). -/
def withOperand (b : BankName) (U : Bank) (s : State) : State :=
  match b with
  | .opa => { s with opa := U }
  | .opb => { s with opb := U }
  | .rlo => s
  | .rhi => s

theorem withOperand_content (b : BankName) (hb : b.isOperand = true) (U : Bank) (s : State) :
    b.content (withOperand b U s) = U := by
  cases b with
  | opa => rfl
  | opb => rfl
  | rlo => cases hb
  | rhi => cases hb

theorem withOperand_content_self (b : BankName) (s : State) : withOperand b (b.content s) s = s := by cases b <;> rfl

theorem withOperand_content_other (b other : BankName) (h : other ≠ b) (U : Bank) (s : State) :
    other.content (withOperand b U s) = other.content s := by
  cases b with
  | opa =>
    cases other with
    | opa => exact absurd rfl h
    | _ => rfl
  | opb =>
    cases other with
    | opb => exact absurd rfl h
    | _ => rfl
  | rlo => rfl
  | rhi => rfl

theorem withOperand_withOperand (b : BankName) (U V : Bank) (s : State) :
    withOperand b V (withOperand b U s) = withOperand b V s := by cases b <;> rfl

/-- A write to a word of an operand bank stores it (R58). -/
theorem perform_write_operand (b : BankName) (hb : b.isOperand = true) (i : Fin 8) (v : Word) (s : State) :
    perform (.write (b.reg i).offset v) s = .next (withOperand b ((b.content s).set i v) s) := by
  cases b with
  | opa => exact hostWrite_opa i v s
  | opb => exact hostWrite_opb i v s
  | rlo => cases hb
  | rhi => cases hb

/-- The writes of a load overwrite their words of the bank and do nothing else (R87). -/
theorem performAll_loadBank (b : BankName) (hb : b.isOperand = true) (X : Bank) (order : List (Fin 8)) (s : State) :
    performAll (loadBank b X order) s = .next (withOperand b (overwrite X (b.content s) order) s) := by
  induction order generalizing s with
  | nil => exact congrArg _ (withOperand_content_self b s).symm
  | cons i order ih =>
    refine (performAll_cons _ _ s _ (perform_write_operand b hb i X[i] s)).trans ((ih _).trans ?_)
    rw [withOperand_content b hb, withOperand_withOperand, overwrite_cons]

/-- A whole load, in any order, loads the bank. -/
theorem performAll_loadBank_perm (b : BankName) (hb : b.isOperand = true) (X : Bank) (order : List (Fin 8)) (s : State)
    (h : order.Perm indexOrder) : performAll (loadBank b X order) s = .next (withOperand b X s) := by
  rw [performAll_loadBank b hb, overwrite_perm X _ order h]

/-- Settles O38: the eight writes store in all eight words, whatever their order. -/
theorem loadOrderDoesNotMatter : Obligations.LoadOrderDoesNotMatter := by
  unfold Obligations.LoadOrderDoesNotMatter
  intro X order s h
  exact ⟨performAll_loadBank_perm .opa rfl X order s h, performAll_loadBank_perm .opb rfl X order s h⟩

/-- A command completes, and leaves both operand banks as they are (R34). -/
theorem exec_keeps_operand (b : BankName) (hb : b.isOperand = true) (i : Instr) (s : State) :
    ∃ t, exec i s = .next t ∧ b.content t = b.content s := by
  obtain ⟨t, hexec, hopa, hopb, -⟩ := commandWritesOnlyItsResults i s
  refine ⟨t, hexec, ?_⟩
  cases b with
  | opa => exact hopa
  | opb => exact hopb
  | rlo => cases hb
  | rhi => cases hb

/-- A command after some writes of a load runs on the bank as they leave it (R206). -/
theorem performAll_loadBank_command (b : BankName) (hb : b.isOperand = true) (X : Bank) (order : List (Fin 8))
    (i : Instr) (s : State) :
    ∃ t, performAll (loadBank b X order ++ [.write 0x22#6 (encode i)]) s = .next t ∧
      exec i (withOperand b (overwrite X (b.content s) order) s) = .next t ∧
      b.content t = overwrite X (b.content s) order := by
  obtain ⟨t, hexec, hkept⟩ := exec_keeps_operand b hb i (withOperand b (overwrite X (b.content s) order) s)
  have hcommand : perform (.write 0x22#6 (encode i)) (withOperand b (overwrite X (b.content s) order) s) = .next t :=
    (hostWrite_encode i _).trans hexec
  refine ⟨t, ?_, hexec, hkept.trans (withOperand_content b hb _ s)⟩
  rw [performAll_append _ _ s _ (performAll_loadBank b hb X order s), performAll_cons _ _ _ t hcommand, performAll_nil]

/-- Settles O39: the command runs on the bank overwritten by the writes before it, and keeps it. -/
theorem partlyLoadedOperandIsUsedAsItStands : Obligations.PartlyLoadedOperandIsUsedAsItStands := by
  unfold Obligations.PartlyLoadedOperandIsUsedAsItStands
  intro X order k i s _ _
  constructor
  · obtain ⟨t, hrun, hexec, hkept⟩ := performAll_loadBank_command .opa rfl X (order.take k) i s
    exact ⟨_, t, hrun, hexec, hkept, overwrite_get X s.opa (order.take k)⟩
  · obtain ⟨t, hrun, hexec, hkept⟩ := performAll_loadBank_command .opb rfl X (order.take k) i s
    exact ⟨_, t, hrun, hexec, hkept, overwrite_get X s.opb (order.take k)⟩

/-! ### Moves -/

theorem readReg_bank (b : BankName) (i : Fin 8) (s : State) : readReg s (b.reg i) = (b.content s)[i] := by
  cases b <;> rfl

/-- The engine after more values have been read. -/
def withAnswers (vs : List Word) (s : State) : State := { s with answers := s.answers ++ vs }

/-- Reads of a bank return its words in the order of the reads, and do nothing else (R57). -/
theorem performAll_reads (b : BankName) (is : List (Fin 8)) (s : State) :
    performAll (is.map fun i => .read (b.reg i).offset) s =
      .next (withAnswers (is.map fun i => (b.content s)[i]) s) := by
  induction is generalizing s with
  | nil => simp [performAll_nil, withAnswers]
  | cons i is ih =>
    have hcontent : b.content (answer (b.content s)[i] s) = b.content s := by cases b <;> rfl
    have hread : perform (.read (b.reg i).offset) s = .next (answer (b.content s)[i] s) := by
      rw [perform_read, hostRead_offset, readReg_bank]
    rw [List.map_cons, performAll_cons _ _ s _ hread, ih, hcontent]
    simp [withAnswers, answer]

/-- The words of a bank in index order. -/
theorem indexOrder_map_get (X : Bank) : (indexOrder.map fun i => X[i]) = X.toList := by
  refine List.ext_getElem (by simp [indexOrder]) fun k hk _ => ?_
  have hindex : ∀ k (hk : k < indexOrder.length), indexOrder[k].val = k := by decide
  rw [List.length_map] at hk
  simp [hindex k hk]

theorem performAll_readBank (b : BankName) (s : State) :
    performAll (readBank b) s = .next (withAnswers (b.content s).toList s) := by
  rw [readBank, performAll_reads, indexOrder_map_get]

/-- A script of one statement is that statement's transactions. -/
theorem runScript_singleton (st : Stmt) (s : State) : runScript [st] s = performAll (st.expand s) s := by
  rw [runScript]
  cases performAll (st.expand s) s <;> rfl

/-- Settles O40: the reads return the source's words and change no register; the writes are a load of them. -/
theorem movwCopiesABank : Obligations.MovwCopiesABank := by
  unfold Obligations.MovwCopiesABank
  intro dst src s hdst
  have hrun : runScript [.movw dst src] s =
      .next (withOperand dst (src.content s) (withAnswers (src.content s).toList s)) := by
    rw [runScript_singleton, Stmt.expand, performAll_append _ _ s _ (performAll_readBank src s),
      performAll_loadBank_perm dst hdst _ _ _ (List.Perm.refl _)]
  refine ⟨_, hrun, withOperand_content dst hdst _ _, fun other hother => ?_, ?_⟩
  · rw [withOperand_content_other dst other hother]
    cases other <;> rfl
  · cases dst <;> exact ⟨rfl, rfl, rfl, rfl, rfl⟩

end Sys2Proof.Machine

/-! PROOFS. The shifts and comparisons of the word-array utilities (spec/43_word_array_utilities.md R154, R155, R159,
R160). -/

namespace Sys2Proof.Machine

/-! ### Shifts -/

/-- Settles O50: each shift is the shift of the value; by 512 or more nothing of the value is left, and by 0 all. -/
theorem shiftsFollowTheirContract : Obligations.ShiftsFollowTheirContract := by
  unfold Obligations.ShiftsFollowTheirContract
  intro src bits
  rw [utilShiftLeft_eq_wide, utilShiftRight_eq_wide]
  refine ⟨fun _ => ⟨(wide_mod _).symm, rfl⟩, fun hbits => ⟨?left, ?right⟩, ?none⟩
  case left =>
    have hgone : (val src <<< bits.toNat) % 2 ^ 512 = 0 := by
      rw [Nat.shiftLeft_eq]
      exact Nat.mod_eq_zero_of_dvd (Dvd.dvd.mul_left (pow_dvd_pow 2 hbits) _)
    rw [← wide_mod, hgone]
  case right =>
    have hlt : val src < 2 ^ bits.toNat := (val_lt src).trans_le (pow_le_pow_right₀ one_le_two hbits)
    rw [Nat.shiftRight_eq_div_pow, Nat.div_eq_of_lt hlt]
  case none =>
    rintro rfl
    exact ⟨wide_val src, wide_val src⟩

/-! ### Comparisons -/

/-- The number whose digits in base `2^64` are those of `n` and then the words of `X` at the listed indices. -/
def appendWords (X : Bank) (n : Nat) (is : List (Fin 8)) : Nat := is.foldl (fun n i => n * 2 ^ 64 + X[i].toNat) n

theorem appendWords_cons (X : Bank) (n : Nat) (i : Fin 8) (is : List (Fin 8)) :
    appendWords X n (i :: is) = appendWords X (n * 2 ^ 64 + X[i].toNat) is := rfl

theorem val_eq_appendWords (X : Bank) : val X = appendWords X 0 downwards := by
  simp [val, appendWords, downwards]

/-- No later digits make up for a smaller leading part. -/
theorem appendWords_lt (a b : Bank) (m n : Nat) (is : List (Fin 8)) (h : m < n) :
    appendWords a m is < appendWords b n is := by
  induction is generalizing m n with
  | nil => exact h
  | cons i is ih =>
    have ha := a[i].isLt
    rw [appendWords_cons, appendWords_cons]
    exact ih _ _ (by omega)

/-- The spec's signs for the order of two numbers (R154, decision D23). -/
def orderSign (x y : Nat) : Int := if x = y then 0 else if x < y then -1 else 1

/-- Comparing word by word from the same leading part is comparing the numbers. -/
theorem compareWords_eq_orderSign (a b : Bank) (n : Nat) (is : List (Fin 8)) :
    compareWords a b is = orderSign (appendWords a n is) (appendWords b n is) := by
  induction is generalizing n with
  | nil => exact (if_pos rfl).symm
  | cons i is ih =>
    rw [compareWords, appendWords_cons, appendWords_cons]
    split_ifs with heq hlt
    · rw [heq, ih]
    · have hless := appendWords_lt a b (n * 2 ^ 64 + a[i].toNat) (n * 2 ^ 64 + b[i].toNat) is
        (Nat.add_lt_add_left hlt _)
      rw [orderSign, if_neg hless.ne, if_pos hless]
    · have hgt : b[i].toNat < a[i].toNat := by
        rw [BitVec.lt_def] at hlt
        rw [← BitVec.toNat_inj] at heq
        omega
      have hgreater := appendWords_lt b a (n * 2 ^ 64 + b[i].toNat) (n * 2 ^ 64 + a[i].toNat) is
        (Nat.add_lt_add_left hgt _)
      rw [orderSign, if_neg hgreater.ne', if_neg hgreater.asymm]

/-- `compare` orders banks by their values (R154). -/
theorem utilCompare_eq_orderSign (a b : Bank) : utilCompare a b = orderSign (val a) (val b) := by
  rw [utilCompare, compareWords_eq_orderSign a b 0, val_eq_appendWords, val_eq_appendWords]

theorem orderSign_eq_zero_iff (x y : Nat) : orderSign x y = 0 ↔ x = y := by
  unfold orderSign
  split_ifs <;> simp <;> omega

theorem orderSign_eq_neg_one_iff (x y : Nat) : orderSign x y = -1 ↔ x < y := by
  unfold orderSign
  split_ifs <;> simp <;> omega

theorem orderSign_eq_one_iff (x y : Nat) : orderSign x y = 1 ↔ y < x := by
  unfold orderSign
  split_ifs <;> simp <;> omega

/-- Equal words decide nothing. -/
theorem compareWords_append (a b : Bank) (is js : List (Fin 8)) (h : ∀ i ∈ is, a[i] = b[i]) :
    compareWords a b (is ++ js) = compareWords a b js := by
  induction is with
  | nil => rfl
  | cons i is ih =>
    rw [List.forall_mem_cons] at h
    obtain ⟨hi, his⟩ := h
    rw [List.cons_append, compareWords, if_pos hi, ih his]

/-- The first word that differs decides (R154). -/
theorem utilCompare_of_first_difference (a b : Bank) (i : Fin 8) (hbefore : ∀ j : Fin 8, j < i → a[j] = b[j])
    (hdiffers : a[i] ≠ b[i]) : utilCompare a b = if a[i] < b[i] then -1 else 1 := by
  have hsplit : ∀ i : Fin 8, downwards = downwards.take i.val ++ i :: downwards.drop (i.val + 1) := by decide
  have hfirst : ∀ i : Fin 8, ∀ j ∈ downwards.take i.val, j < i := by decide
  rw [utilCompare, hsplit i, compareWords_append a b _ _ fun j hj => hbefore j (hfirst i j hj), compareWords,
    if_neg hdiffers]

/-- A bank with a nonzero word above the last exceeds every word (R155). -/
theorem toNat_lt_val_of_high_word (a : Bank) (s : Word) (i : Fin 8) (hi : i.val < 7) (h : a[i] ≠ 0) :
    s.toNat < val a := by
  by_contra hle
  obtain ⟨-, hhigh⟩ := wide_get_of_lt (val a) ((Nat.le_of_not_lt hle).trans_lt s.isLt)
  rw [wide_val] at hhigh
  exact h (hhigh i hi)

/-- A bank with no other word than the last is that word. -/
theorem val_of_last_word (a : Bank) (h : ∀ i : Fin 8, i.val < 7 → a[i] = 0) : val a = a[7].toNat := by
  have hbank : utilSetScalar a[7] = a := by
    refine Vector.ext fun k hk => ?_
    rw [utilSetScalar_get]
    split_ifs with hlast
    · subst hlast
      rfl
    · exact (h ⟨k, hk⟩ (by simp only; omega)).symm
  rw [← val_utilSetScalar, hbank]

theorem utilCompareScalar_eq_orderSign (a : Bank) (s : Word) : utilCompareScalar a s = orderSign (val a) s.toNat := by
  rw [utilCompareScalar, utilCompare_eq_orderSign, val_utilSetScalar]

/-- Settles O48: both comparisons are the sign of the order of two values. -/
theorem compareOrdersValues : Obligations.CompareOrdersValues := by
  unfold Obligations.CompareOrdersValues
  refine ⟨fun a b => ?_, utilCompare_of_first_difference, fun a s => ⟨?wide, ?high, ?last⟩⟩
  · rw [utilCompare_eq_orderSign]
    exact ⟨orderSign_eq_zero_iff _ _, orderSign_eq_neg_one_iff _ _, orderSign_eq_one_iff _ _⟩
  case wide => rw [wide_toNat, utilCompareScalar]
  case high =>
    rintro ⟨i, hi, hne⟩
    rw [utilCompareScalar_eq_orderSign, orderSign_eq_one_iff]
    exact toNat_lt_val_of_high_word a s i hi hne
  case last =>
    intro hzero
    rw [utilCompareScalar_eq_orderSign, val_of_last_word a hzero, orderSign]
    simp only [BitVec.toNat_inj, BitVec.lt_def]

end Sys2Proof.Machine

/-! PROOFS. Binary long division (spec/42_divide.md R124, R125). Both procedures take the same step on numbers, which
keeps the loop invariant of R124; after bit 0 the invariant is the division identity. -/

namespace Sys2Proof.Machine

/-! ### The step on numbers -/

/-- The loop invariant of R124 when the bits from `i` up are done: the dividend's bits from `i` up have been divided,
with remainder `r`, and the quotient bits below `i` are still zero. -/
structure LongDivisionInvariant (n d i q r : Nat) : Prop where
  identity : n >>> i = (q >>> i) * d + r
  bound : r < d
  blank : q % 2 ^ i = 0

/-- One step of long division for bit `i`, on the quotient so far and the remainder (R124). -/
def longDivisionStep (n d i q r : Nat) : Nat × Nat :=
  if d ≤ 2 * r + (n.testBit i).toNat then (q + 2 ^ i, 2 * r + (n.testBit i).toNat - d)
  else (q, 2 * r + (n.testBit i).toNat)

theorem shiftRight_eq_double_add_bit (n i : Nat) : n >>> i = 2 * (n >>> (i + 1)) + (n.testBit i).toNat := by
  rw [Nat.toNat_testBit, Nat.shiftRight_succ, ← Nat.shiftRight_eq_div_pow]
  exact (Nat.div_add_mod _ 2).symm

theorem two_pow_mul_shiftRight (i c : Nat) : (2 ^ i * c) >>> i = c := by
  rw [Nat.shiftRight_eq_div_pow, Nat.mul_div_cancel_left _ (by positivity)]

theorem longDivisionStep_keeps_invariant (n d i q r : Nat) (h : LongDivisionInvariant n d (i + 1) q r) :
    LongDivisionInvariant n d i (longDivisionStep n d i q r).1 (longDivisionStep n d i q r).2 := by
  obtain ⟨hidentity, hlt, hblank⟩ := h
  obtain ⟨c, rfl⟩ := Nat.dvd_of_mod_eq_zero hblank
  have hbit := shiftRight_eq_double_add_bit n i
  have hbound := Bool.toNat_le (n.testBit i)
  have hq : 2 ^ (i + 1) * c = 2 ^ i * (2 * c) := by rw [Nat.pow_succ, Nat.mul_assoc]
  rw [two_pow_mul_shiftRight] at hidentity
  rw [longDivisionStep, hq]
  split
  · have hset : 2 ^ i * (2 * c) + 2 ^ i = 2 ^ i * (2 * c + 1) := by ring
    refine ⟨?_, by simp only; omega, ?_⟩
    · rw [hset, two_pow_mul_shiftRight, Nat.add_mul, Nat.mul_assoc]
      omega
    · rw [hset, Nat.mul_mod_right]
  · refine ⟨?_, by simp only; omega, Nat.mul_mod_right _ _⟩
    rw [two_pow_mul_shiftRight, Nat.mul_assoc]
    omega

/-- Before the first step nothing has been divided. -/
theorem longDivisionInvariant_start (n d k : Nat) (hn : n < 2 ^ k) (hd : d ≠ 0) : LongDivisionInvariant n d k 0 0 := by
  refine ⟨?_, Nat.pos_of_ne_zero hd, Nat.zero_mod _⟩
  rw [Nat.shiftRight_eq_div_pow, Nat.div_eq_of_lt hn, Nat.zero_shiftRight, Nat.zero_mul]

/-- After the last step the results are those of the divide (R122). -/
theorem divideResults_of_invariant (n d q r : Nat) (h : LongDivisionInvariant n d 0 q r) :
    divideResults n d = ⟨q, r, stOk⟩ := by
  obtain ⟨hidentity, hlt, -⟩ := h
  rw [Nat.shiftRight_zero, Nat.shiftRight_zero] at hidentity
  rw [hidentity, divideResults_mul_add q d r hlt]

theorem two_pow_bank_eq_double : 2 ^ 512 = 2 * 2 ^ 511 := by rw [← pow_succ']

/-- The remainder leaves room for a doubling: it is at most the half of the dividend (R124). -/
theorem remainder_lt_of_invariant (N : Bank) (d i q r : Nat) (h : LongDivisionInvariant (val N) d (i + 1) q r) :
    r < 2 ^ 511 := by
  obtain ⟨hidentity, -, -⟩ := h
  have hhalf : val N >>> (i + 1) < 2 ^ 511 := by
    have hle : val N >>> i ≤ val N := Nat.shiftRight_le _ _
    rw [Nat.shiftRight_succ]
    exact Nat.div_lt_of_lt_mul (hle.trans_lt ((val_lt N).trans_eq two_pow_bank_eq_double))
  omega

/-! ### One bit of a bank -/

theorem setBankBit_eq_wide (Q : Bank) (i : Nat) (hi : i < 512) : setBankBit Q i = wide (val Q ||| 2 ^ i) := by
  refine eq_wide_of_bits _ _ fun k hk j hj => ?_
  rw [Nat.testBit_or, Nat.testBit_two_pow, setBankBit, ← word_bit Q k hk j hj]
  by_cases hword : 7 - i / 64 = k
  · subst hword
    have hplace : i = 64 * (7 - (7 - i / 64)) + j ↔ i % 64 = j := by omega
    rw [Vector.getElem_set_self, BitVec.getLsbD_or, ← BitVec.twoPow_eq, BitVec.getLsbD_twoPow]
    simp [hplace, Nat.mod_lt]
  · have hplace : i ≠ 64 * (7 - k) + j := by omega
    rw [Vector.getElem_set_ne _ _ hword]
    simp [hplace]

theorem or_two_pow_lt (v i n : Nat) (hv : v < 2 ^ n) (hi : i < n) : v ||| 2 ^ i < 2 ^ n :=
  Nat.or_lt_two_pow hv (pow_lt_pow_right₀ one_lt_two hi)

/-- Setting a bit that is still zero, as are those below it, adds its power of two (R124). -/
theorem val_setBankBit (Q : Bank) (i : Nat) (hi : i < 512) (h : val Q % 2 ^ (i + 1) = 0) :
    val (setBankBit Q i) = val Q + 2 ^ i := by
  rw [setBankBit_eq_wide Q i hi, val_wide _ (or_two_pow_lt _ i 512 (val_lt Q) hi)]
  obtain ⟨c, hc⟩ := Nat.dvd_of_mod_eq_zero h
  rw [hc, Nat.two_pow_add_eq_or_of_lt (Nat.pow_lt_pow_succ (by decide)) c]

/-! ### Scalar long division -/

theorem divScalarStep_eq (N Q : Bank) (s : Word) (i r : Nat) :
    divScalarStep N s i (Q, r) =
      if s.toNat ≤ 2 * r + (bankBit N i).toNat then (setBankBit Q i, 2 * r + (bankBit N i).toNat - s.toNat)
      else (Q, 2 * r + (bankBit N i).toNat) := rfl

/-- The scalar step is the step on numbers (R125). -/
theorem divScalarStep_value (N : Bank) (s : Word) (i : Nat) (hi : i < 512) (qr : Bank × Nat)
    (h : val qr.1 % 2 ^ (i + 1) = 0) :
    (val (divScalarStep N s i qr).1, (divScalarStep N s i qr).2) =
      longDivisionStep (val N) s.toNat i (val qr.1) qr.2 := by
  rw [divScalarStep_eq, longDivisionStep, bankBit_eq N i hi]
  split
  · rw [val_setBankBit _ i hi h]
  · rfl

theorem divScalarLoop_invariant (N : Bank) (s : Word) (n : Nat) (hn : n ≤ 512) (qr : Bank × Nat)
    (h : LongDivisionInvariant (val N) s.toNat n (val qr.1) qr.2) :
    LongDivisionInvariant (val N) s.toNat 0 (val (divScalarLoop N s n qr).1) (divScalarLoop N s n qr).2 := by
  induction n generalizing qr with
  | zero => exact h
  | succ i ih =>
    have hstep := longDivisionStep_keeps_invariant _ _ _ _ _ h
    rw [← divScalarStep_value N s i hn qr h.blank] at hstep
    exact ih (by omega) _ hstep

theorem divLongScalar_zero (N : Bank) : divLongScalar N 0 = (stDbz, wide 0, 0) := if_pos rfl

theorem divLongScalar_of_ne (N : Bank) (s : Word) (h : s ≠ 0) :
    divLongScalar N s =
      (stOk, (divScalarLoop N s 512 (utilZero, 0)).1, word (divScalarLoop N s 512 (utilZero, 0)).2) := if_neg h

/-- Settles O24: the loop ends in the division identity, which fixes what DIVS commits; a doubled remainder is below
twice the divisor, so one subtraction brings it below the divisor. -/
theorem scalarLongDivisionComputesDivs : Obligations.ScalarLongDivisionComputesDivs := by
  unfold Obligations.ScalarLongDivisionComputesDivs
  refine ⟨fun s => ?_, fun N Q s i r hr => ?_⟩
  · by_cases hs : s.ops = 0
    · refine ⟨_, execDivs_zero s (congrArg BitVec.toNat hs), ?_⟩
      rw [hs, divLongScalar_zero]
      rfl
    · have hstart := longDivisionInvariant_start (val s.opa) s.ops.toNat 512 (val_lt _) (toNat_ne_zero_of_ne_zero _ hs)
      have hend := divScalarLoop_invariant s.opa s.ops 512 le_rfl (utilZero, 0) hstart
      refine ⟨_, exec_divs s _ (divideResults_of_invariant _ _ _ _ hend), ?_⟩
      rw [divLongScalar_of_ne _ _ hs, commitScalar_status, commitScalar_rlo, commitScalar_rs, wide_val]
  · have hbit := Bool.toNat_le (bankBit N i)
    have hs := s.isLt
    refine ⟨by omega, by omega, ?_⟩
    rw [divScalarStep_eq]
    split <;> simp only <;> omega

/-! ### Wide long division -/

/-- The remainder shifted left by one with a bit brought in below, as `div_long` does (R124). -/
def shiftInBit (R : Bank) (b : Bool) : Bank :=
  (utilShiftLeft R 1).set 7 ((utilShiftLeft R 1)[7] ||| (if b then 1#64 else 0#64))

theorem val_shiftLeft_one (R : Bank) (h : val R < 2 ^ 511) : val (utilShiftLeft R 1) = 2 * val R := by
  have hone : (1 : BitVec 16).toNat = 1 := rfl
  have hlt : 2 * val R < 2 ^ 512 := by
    rw [two_pow_bank_eq_double]
    generalize 2 ^ 511 = half at h ⊢
    omega
  rw [utilShiftLeft_eq_wide, hone, Nat.shiftLeft_eq, pow_one, Nat.mul_comm, val_wide _ hlt]

theorem shiftInBit_true (R : Bank) : shiftInBit R true = setBankBit (utilShiftLeft R 1) 0 := rfl

theorem shiftInBit_false (R : Bank) : shiftInBit R false = utilShiftLeft R 1 := by
  simp [shiftInBit]

/-- The shift by one doubles and makes room for the bit (R124). -/
theorem val_shiftInBit (R : Bank) (b : Bool) (h : val R < 2 ^ 511) : val (shiftInBit R b) = 2 * val R + b.toNat := by
  have hshift := val_shiftLeft_one R h
  cases b with
  | false => rw [shiftInBit_false, hshift, Bool.toNat_false, Nat.add_zero]
  | true =>
    have heven : val (utilShiftLeft R 1) % 2 ^ (0 + 1) = 0 := by rw [hshift, Nat.zero_add, pow_one, Nat.mul_mod_right]
    rw [shiftInBit_true, val_setBankBit _ 0 (by decide) heven, hshift, pow_zero, Bool.toNat_true]

theorem utilCompare_nonneg_iff (a b : Bank) : utilCompare a b ≥ 0 ↔ val b ≤ val a := by
  rw [utilCompare_eq_orderSign, orderSign]
  split_ifs <;> simp <;> omega

theorem utilSub_of_le (a b : Bank) (h : val b ≤ val a) : val (utilSub a b).1 = val a - val b := by
  have ha := val_lt a
  rw [utilSub_eq a b (val a - val b) 0 (by omega) (by omega), val_wide _ (by omega)]

theorem divLongStep_eq (N D : Bank) (i : Nat) (qr : Bank × Bank) :
    divLongStep N D i qr =
      if val D ≤ val (shiftInBit qr.2 (bankBit N i)) then
        (setBankBit qr.1 i, (utilSub (shiftInBit qr.2 (bankBit N i)) D).1)
      else (qr.1, shiftInBit qr.2 (bankBit N i)) :=
  if_congr (utilCompare_nonneg_iff _ _) rfl rfl

/-- The wide step is the step on numbers (R124). -/
theorem divLongStep_value (N D : Bank) (i : Nat) (hi : i < 512) (qr : Bank × Bank) (hR : val qr.2 < 2 ^ 511)
    (hQ : val qr.1 % 2 ^ (i + 1) = 0) :
    (val (divLongStep N D i qr).1, val (divLongStep N D i qr).2) =
      longDivisionStep (val N) (val D) i (val qr.1) (val qr.2) := by
  have hvalue := val_shiftInBit qr.2 (bankBit N i) hR
  rw [divLongStep_eq, longDivisionStep, ← bankBit_eq N i hi, ← hvalue]
  split
  · next hle => rw [val_setBankBit _ i hi hQ, utilSub_of_le _ _ hle]
  · rfl

theorem divLongStep_keeps_invariant (N D : Bank) (i : Nat) (hi : i < 512) (qr : Bank × Bank)
    (h : LongDivisionInvariant (val N) (val D) (i + 1) (val qr.1) (val qr.2)) :
    LongDivisionInvariant (val N) (val D) i (val (divLongStep N D i qr).1) (val (divLongStep N D i qr).2) := by
  have hstep := longDivisionStep_keeps_invariant _ _ _ _ _ h
  rwa [← divLongStep_value N D i hi qr (remainder_lt_of_invariant N _ i _ _ h) h.blank] at hstep

/-- Settles O23: the step is that of numbers, which keeps the invariant, and the remainder is at most half of the
dividend. -/
theorem longDivisionStepKeepsTheIdentity : Obligations.LongDivisionStepKeepsTheIdentity := by
  unfold Obligations.LongDivisionStepKeepsTheIdentity
  intro N D Q R i hi hidentity hlt hblank
  have h : LongDivisionInvariant (val N) (val D) (i + 1) (val Q) (val R) := ⟨hidentity, hlt, hblank⟩
  have hR := remainder_lt_of_invariant N _ i _ _ h
  have hnext := divLongStep_keeps_invariant N D i hi (Q, R) h
  exact ⟨hR, val_shiftLeft_one R hR, hnext.identity, hnext.bound, hnext.blank⟩

theorem divLongLoop_invariant (N D : Bank) (n : Nat) (hn : n ≤ 512) (qr : Bank × Bank)
    (h : LongDivisionInvariant (val N) (val D) n (val qr.1) (val qr.2)) :
    LongDivisionInvariant (val N) (val D) 0 (val (divLongLoop N D n qr).1) (val (divLongLoop N D n qr).2) := by
  induction n generalizing qr with
  | zero => exact h
  | succ i ih => exact ih (by omega) _ (divLongStep_keeps_invariant N D i hn qr h)

theorem utilCompare_zero_iff (D : Bank) : utilCompare D (wide 0) = 0 ↔ val D = 0 := by
  rw [utilCompare_eq_orderSign, orderSign_eq_zero_iff]
  rfl

theorem divLong_zero (N D : Bank) (h : val D = 0) : divLong N D = (stDbz, wide 0, wide 0) :=
  if_pos ((utilCompare_zero_iff D).mpr h)

theorem divLong_of_ne (N D : Bank) (h : val D ≠ 0) :
    divLong N D =
      (stOk, (divLongLoop N D 512 (utilZero, utilZero)).1, (divLongLoop N D 512 (utilZero, utilZero)).2) :=
  if_neg ((utilCompare_zero_iff D).not.mpr h)

/-- Settles O22: the loop ends in the division identity, which fixes what DIVW commits. -/
theorem longDivisionComputesDivw : Obligations.LongDivisionComputesDivw := by
  unfold Obligations.LongDivisionComputesDivw
  intro s
  by_cases hd : val s.opb = 0
  · refine ⟨_, execDivw_zero s hd, ?_⟩
    rw [divLong_zero _ _ hd]
    rfl
  · have hstart := longDivisionInvariant_start (val s.opa) (val s.opb) 512 (val_lt _) hd
    have hend := divLongLoop_invariant s.opa s.opb 512 le_rfl (utilZero, utilZero) hstart
    refine ⟨_, exec_divw s _ (divideResults_of_invariant _ _ _ _ hend), ?_⟩
    rw [divLong_of_ne _ _ hd, commitWide_status, commitWide_rlo, commitWide_rhi, wide_val, wide_val]

end Sys2Proof.Machine

/-! PROOFS. The platform (spec/60_exceptions.md R191, spec/20_memory.md R52, R56): an access goes to the one engine
whose window holds its address, and is refused when it is no whole aligned word or no window holds it. -/

namespace Sys2Proof.Machine

/-! ### Windows -/

theorem claims_iff (e : EngineAt) (addr : Nat) : e.claims addr = true ↔ e.base ≤ addr ∧ addr < e.base + 512 := by
  simp [EngineAt.claims]

theorem wholeWordAccess_iff (base addr bytes : Nat) :
    wholeWordAccess base addr bytes = true ↔ bytes = 8 ∧ (addr - base) % 8 = 0 := by
  simp [wholeWordAccess]

/-- The bases of a well-formed platform are multiples of 512, no two of them equal (R52, R191). -/
theorem bases_of_wellFormed (p : Platform) (h : p.wellFormed = true) :
    (∀ e ∈ p, e.base % 512 = 0) ∧ (p.map EngineAt.base).Nodup := by
  simp only [Platform.wellFormed, Bool.and_eq_true, List.all_eq_true, wellFormedBase_iff, decide_eq_true_eq] at h
  obtain ⟨⟨-, hbases⟩, hnodup⟩ := h
  exact ⟨hbases, hnodup⟩

/-- Windows at different places of a well-formed platform share no address. -/
theorem eq_of_claims (p : Platform) (h : p.wellFormed = true) (j k : Nat) (hj : j < p.length) (hk : k < p.length)
    (addr : Nat) (hclaimj : p[j].claims addr = true) (hclaimk : p[k].claims addr = true) : j = k := by
  obtain ⟨hbases, hnodup⟩ := bases_of_wellFormed p h
  have hbasej := hbases p[j] (List.getElem_mem hj)
  have hbasek := hbases p[k] (List.getElem_mem hk)
  rw [claims_iff] at hclaimj hclaimk
  have hbase : p[j].base = p[k].base := by omega
  have hsame := List.inj_on_of_nodup_map hnodup (List.getElem_mem hj) (List.getElem_mem hk) hbase
  exact (List.Nodup.of_map _ hnodup).getElem_inj_iff.mp hsame

/-! ### Accesses -/

/-- An outcome whose next state is put in its place in something larger. -/
def mapNext {α β : Type} (f : α → β) : Host.Outcome α Fault Refusal → Host.Outcome β Fault Refusal
  | .next a => .next (f a)
  | .fault r => .fault r
  | .refused r => .refused r

theorem mapNext_mapNext {α β γ : Type} (f : α → β) (g : β → γ) (o : Host.Outcome α Fault Refusal) :
    mapNext g (mapNext f o) = mapNext (fun a => g (f a)) o := by
  cases o <;> rfl

/-- The engine whose window holds the address performs a whole-word access. -/
theorem access_cons_of_claims (ev : Offset → Event) (addr bytes : Nat) (e : EngineAt) (es : Platform)
    (hclaims : e.claims addr = true) (hwhole : wholeWordAccess e.base addr bytes = true) :
    Platform.access ev addr bytes (e :: es) =
      mapNext (fun t => { e with engine := t } :: es) (perform (ev (offsetOf e.base addr)) e.engine) := by
  rw [Platform.access, if_pos hclaims, if_pos hwhole]
  cases perform (ev (offsetOf e.base addr)) e.engine <;> rfl

/-- An access that no whole word of the window holds is refused there (R56). -/
theorem access_cons_of_partial (ev : Offset → Event) (addr bytes : Nat) (e : EngineAt) (es : Platform)
    (hclaims : e.claims addr = true) (hpartial : ¬ wholeWordAccess e.base addr bytes = true) :
    Platform.access ev addr bytes (e :: es) = .refused .unsupportedAccess := by
  rw [Platform.access, if_pos hclaims, if_neg hpartial]

/-- An engine whose window does not hold the address is passed over. -/
theorem access_cons_of_not_claims (ev : Offset → Event) (addr bytes : Nat) (e : EngineAt) (es : Platform)
    (hclaims : ¬ e.claims addr = true) :
    Platform.access ev addr bytes (e :: es) = mapNext (fun ts => e :: ts) (Platform.access ev addr bytes es) := by
  rw [Platform.access, if_neg hclaims]
  cases Platform.access ev addr bytes es <;> rfl

/-- The first engine whose window holds the address performs the access, and no other engine changes. -/
theorem access_of_first_claim (ev : Offset → Event) (addr bytes : Nat) (p : Platform) (k : Nat) (hk : k < p.length)
    (hbefore : ∀ j (hj : j < k), ¬ p[j].claims addr = true) (hclaims : p[k].claims addr = true)
    (hwhole : wholeWordAccess p[k].base addr bytes = true) :
    Platform.access ev addr bytes p =
      mapNext (fun t => p.set k { p[k] with engine := t }) (perform (ev (offsetOf p[k].base addr)) p[k].engine) := by
  induction p generalizing k with
  | nil => cases hk
  | cons e es ih =>
    cases k with
    | zero => exact access_cons_of_claims ev addr bytes e es hclaims hwhole
    | succ k =>
      have hrest := ih k (Nat.lt_of_succ_lt_succ hk) (fun j hj => hbefore (j + 1) (Nat.succ_lt_succ hj)) hclaims hwhole
      rw [access_cons_of_not_claims ev addr bytes e es (hbefore 0 (Nat.succ_pos k)), hrest, mapNext_mapNext]
      rfl

theorem offsetOf_slot (base : Nat) (off : Offset) : offsetOf base (base + 8 * off.toNat) = off := by
  rw [offsetOf, Nat.add_sub_cancel_left, Nat.mul_div_cancel_left _ (by decide), BitVec.ofNat_toNat, BitVec.setWidth_eq]

/-- A whole-word access at a slot of engine `k` is the event of that slot at engine `k` (R52, R191). -/
theorem access_slot (ev : Offset → Event) (p : Platform) (h : p.wellFormed = true) (k : Nat) (hk : k < p.length)
    (off : Offset) :
    Platform.access ev (p[k].base + 8 * off.toNat) 8 p =
      mapNext (fun t => p.set k { p[k] with engine := t }) (perform (ev off) p[k].engine) := by
  have hclaims : p[k].claims (p[k].base + 8 * off.toNat) = true := (claims_iff _ _).mpr (by omega)
  have hbefore : ∀ j (hj : j < k), ¬ p[j].claims (p[k].base + 8 * off.toNat) = true := fun j hj hclaimj =>
    hj.ne (eq_of_claims p h j k (hj.trans hk) hk _ hclaimj hclaims)
  have hwhole : wholeWordAccess p[k].base (p[k].base + 8 * off.toNat) 8 = true :=
    (wholeWordAccess_iff _ _ _).mpr (by omega)
  rw [access_of_first_claim ev _ 8 p k hk hbefore hclaims hwhole, offsetOf_slot]

/-- Settles O51: an access at a slot is the slot's event at the engine, whose outcome it passes on. -/
theorem platformAccessReachesOneEngine : Obligations.PlatformAccessReachesOneEngine := by
  unfold Obligations.PlatformAccessReachesOneEngine
  refine ⟨fun p k hk hwf => ⟨fun ev off => ⟨fun t ht => ?_, fun r hr => ?_⟩, fun v hbit => ?_⟩, fun bases k hk => ?_⟩
  · rw [access_slot ev p hwf k hk off, ht, mapNext]
  · rw [access_slot ev p hwf k hk off, hr, mapNext]
  · obtain ⟨hrefused, -⟩ := reservedBitsAreRefused v p[k].engine
    have hperform : perform (.write 0x22#6 v) p[k].engine = .refused .reservedCommandBits := hrefused hbit
    exact (access_slot (fun off => .write off v) p hwf k hk 0x22#6).trans (congrArg _ hperform)
  · simp [Platform.reset]

/-- An access that is no whole aligned word of any window is refused. -/
theorem access_refused (ev : Offset → Event) (addr bytes : Nat) (p : Platform)
    (h : ∀ e ∈ p, e.claims addr = true → ¬ wholeWordAccess e.base addr bytes = true) :
    Platform.access ev addr bytes p = .refused .unsupportedAccess := by
  induction p with
  | nil => rfl
  | cons e es ih =>
    rw [List.forall_mem_cons] at h
    obtain ⟨he, hes⟩ := h
    by_cases hclaims : e.claims addr = true
    · exact access_cons_of_partial ev addr bytes e es hclaims (he hclaims)
    · rw [access_cons_of_not_claims ev addr bytes e es hclaims, ih hes, mapNext]

/-- Settles O52: the bases are multiples of 8, so in each of the three cases no window holds the access as a whole
aligned word. -/
theorem platformRefusesPartialAccess : Obligations.PlatformRefusesPartialAccess := by
  unfold Obligations.PlatformRefusesPartialAccess
  intro p ev addr bytes hwf hcase
  obtain ⟨hbases, -⟩ := bases_of_wellFormed p hwf
  refine access_refused ev addr bytes p fun e he hclaims hwhole => ?_
  have hbase := hbases e he
  rw [claims_iff] at hclaims
  rw [wholeWordAccess_iff] at hwhole
  obtain hwidth | halign | houtside := hcase
  · omega
  · omega
  · have hmiss := houtside e he
    omega

end Sys2Proof.Machine
